-- ==== Sys2Proof/Word.lean ====
section
/-! DEFINITION. The word types of the LS-8 block (spec 00_scope.md R15, R16; 10_state.md R30, R37). -/

namespace Sys2Proof

/-- An 8-bit unsigned value: a register, a memory byte, the flags register (R30, R41, R61). -/
abbrev Byte := BitVec 8

/-- A 9-bit value: the program counter and every address the engine computes from it (R37). -/
abbrev PcWord := BitVec 9

end Sys2Proof
end

