-- ==== Sys2Proof/Config.lean ====
section
/-! DEFINITION. What an implementation of the block fixes: the parameters of spec 00_scope.md R15.
The default opcode map itself stands in Decode.lean, beside the decoder that reads it. -/

namespace Sys2Proof

/-- The 13 operations the dispatch table holds (R11), as names only; their byte values are the
parameter `OpcMap`. -/
inductive Opcode where
  | ldi | prn | add | mul | hlt | push | pop | call | ret | cmp | jmp | jeq | jne
deriving DecidableEq, Repr

/-- All 13 entries of the dispatch table, in the order of R11. -/
def Opcode.all : List Opcode :=
  [.ldi, .prn, .add, .mul, .hlt, .push, .pop, .call, .ret, .cmp, .jmp, .jeq, .jne]

/-- The parameter `OPC` (R95, R107): the opcode byte of each operation. A parameter, not state. -/
abbrev OpcMap := Opcode → Byte

/-- "Any replacement map must give 13 distinct byte values" (R95). -/
abbrev OpcMap.Distinct (opc : OpcMap) : Prop := (Opcode.all.map opc).Nodup

namespace Config

/-- `MEM_SIZE`: 256 one-byte cells at addresses 0 to 255 (R15, R60). -/
abbrev memSize : Nat := 256

/-- `SP_INDEX`: R7 is the stack pointer (R15, R32). -/
abbrev spIndex : Fin 8 := 7

/-- `SP_INIT`: the reset value of SP (R15, R36). -/
abbrev spInit : Byte := 244

/-- `SP_POP_CLAMP`: the value POP does not let SP exceed (R15, R162). -/
abbrev spPopClamp : Nat := 244

/-- `SAT_MAX`: where add and multiply saturate (R15, R21). -/
abbrev satMax : Nat := 255

/-- `PC_INIT`: the reset value of the pc (R15, R39). -/
abbrev pcInit : PcWord := 0

/-- `HALT_PC` = `MEM_SIZE + 1`: the value HLT leaves in the pc (R15, R175). -/
abbrev haltPc : PcWord := 257

/-- `GPR_INIT`, the reset values of R0 to R6. The spec leaves it an OPEN parameter (R36, D6);
`State.resetWith` takes it as an argument and every statement about reset quantifies over it.
DESIGN CHOICE (log entry 1, unsafe): `State.reset` is that state at seven zeros. -/
def gprInit : Vector Byte 7 := #v[0, 0, 0, 0, 0, 0, 0]

/-- `FL_INIT`, the reset value of FL. OPEN in the spec (R43, D7), an argument of `State.resetWith`.
DESIGN CHOICE (log entry 2, unsafe): `State.reset` is that state at zero. -/
def flInit : Byte := 0

/-- FREE VALUE (log entry 8, DESIGN CHOICE, safe): bits 7 to 0 of the inspection port `insp_data` while
the addressed cell is unset. R49 gives bit 8 there and says nothing of the others. -/
opaque inspUnsetLow : Byte → Byte

/-- FREE VALUES (log entry 13, DESIGN CHOICE, safe): the ALU's `result` for a compare and its `eq` for an add or a
multiply, whose write enables are 0. R142 to R144 give no value there. -/
opaque aluIdleResult : Byte → Byte → Byte
/-- See `aluIdleResult`. -/
opaque aluIdleEq : Byte → Byte → Bool

end Config

/-- The three parameters R15 leaves to be chosen for one block: `OPC`, `GPR_INIT` and `FL_INIT`. -/
structure Params where
  opc     : OpcMap
  gprInit : Vector Byte 7
  flInit  : Byte

end Sys2Proof
end

