-- ==== Sys2Proof/Machine/State.lean ====
section
/-! DEFINITION. The complete state of one block: "(x[0..7], pc, FL, M[0..255], run_state, out, started)"
(spec 10_state.md), and the state after reset (70_reset_and_hazards.md R221). -/

namespace Sys2Proof.Machine

/-- Reasons for `Host.Outcome.fault`. There is none: every stop the spec describes is a state of the block
(`RunState`), reached by a next state (R22, R103, R175; log entry 4). -/
inductive Fault where
deriving DecidableEq, Repr

/-- Reasons for `Host.Outcome.refused`. -/
inductive Refusal where
  /-- Raised by `exec` for an instruction without a meaning; safe (nothing is proved of it). No arm of
  this model raises it. -/
  | notModelled (mnemonic : String)
deriving DecidableEq, Repr

/-- Why the engine is Halted (R191, codes 1 and 2). -/
inductive HaltCause where
  /-- HLT was executed (R175). -/
  | hlt
  /-- The fetched cell holds a byte outside `OPC`, or is unset (`none`) (R103). -/
  | unrecognizedOpcode (cell : Option Byte)
deriving DecidableEq, Repr

/-- Why the engine is Faulted, with the value the cause records (R191, codes 16 to 23). Each is a state the
spec describes, not a stop of the model. -/
inductive FaultCause where
  /-- ALU with an operation other than add, multiply, compare (R145); no program reaches it. -/
  | unsupportedOperation (op : BitVec 2)
  /-- Opcode fetch with `pc >= 256` (R102). -/
  | fetchOutOfRange (pc : PcWord)
  /-- Operand read at an address >= 256 (R18). -/
  | operandOutOfRange (addr : PcWord)
  /-- Operand, POP or RET read of an unset cell (R18). -/
  | unsetRead (addr : PcWord)
  /-- Register operand byte >= 8 (R20). -/
  | registerIndex (b : Byte)
  /-- PUSH or CALL with SP = 0 (R161). -/
  | stackUnderflow (sp : Byte)
  /-- RET with SP = 255 (R171). -/
  | stackOverflow (sp : Byte)
  /-- CALL whose return address does not fit a byte (R170). -/
  | returnAddressRange (ra : PcWord)
deriving DecidableEq, Repr

/-- `run_state` (R44). Its port fields `state`, `cause` and `info` are computed in Ports.lean (R45). -/
inductive RunState where
  | running
  | halted (cause : HaltCause)
  | faulted (cause : FaultCause)
deriving DecidableEq, Repr

/-- Memory `M`: the cells that hold a byte, by address. An address that is not listed is `unset` (R61). -/
abbrev Memory := List Host.Cell

/-- Addresses rise strictly from `lo` on, and every one is an address of the block. -/
def Memory.wfFrom (lo : Nat) : Memory → Bool
  | [] => true
  | (a, _) :: m => decide (lo ≤ a) && decide (a < Config.memSize) && Memory.wfFrom (a + 1) m

/-- The one canonical form of a memory: strictly rising addresses in 0 to 255 (R60). No listed entry reads as
an unlisted address does, since a byte is never `unset`. -/
def Memory.wf (m : Memory) : Bool := m.wfFrom 0

/-- The state of one block (10_state.md). -/
structure State where
  /-- R0 to R7; R7 is SP (R30, R32). -/
  regs     : Vector Byte 8
  /-- The program counter (R37). -/
  pc       : PcWord
  /-- The flags register FL; bit 0 is Equal (R41). -/
  fl       : Byte
  /-- The 256 cells of `M`, in canonical form (R60, R61). -/
  mem      : Memory
  /-- `run_state` (R44). -/
  runState : RunState
  /-- The output history, oldest first (R46). -/
  out      : List Byte
  /-- `started` (R52). -/
  started  : Bool
deriving DecidableEq, Repr

/-- The state after reset for given `GPR_INIT` and `FL_INIT` (R221). -/
def State.resetWith (gprInit : Vector Byte 7) (flInit : Byte) : State where
  regs     := gprInit.push Config.spInit
  pc       := Config.pcInit
  fl       := flInit
  mem      := []
  runState := .running
  out      := []
  started  := false

/-- The machine right after reset (R221), at the values of log entries 1 and 2 for the two open
parameters. -/
def State.reset : State := State.resetWith Config.gprInit Config.flInit

end Sys2Proof.Machine
end

