-- ==== Sys2Proof/Machine/Ops.lean ====
section
/-! DEFINITION. The named operations over registers, memory, the output and the run state
(spec 00_scope.md R17 to R23), and taking a halt or a fault, said once. -/

/-- `zext_9` of R16: a byte as a 9-bit address, the only extension the block has. -/
def Sys2Proof.Byte.toPc (b : Sys2Proof.Byte) : Sys2Proof.PcWord := b.setWidth 9

namespace Sys2Proof.Machine

/-! ### Memory -/

/-- `M[a]`: a byte, or `none` for `unset` (R17, R62). -/
def Memory.lookup : Memory → Nat → Option Byte
  | [], _ => none
  | (k, v) :: m, a => if a = k then some v else Memory.lookup m a

/-- `M[a] <- v`, keeping the addresses strictly rising (R19). -/
def Memory.store (a : Nat) (v : Byte) : Memory → Memory
  | [] => [(a, v)]
  | (k, w) :: m =>
    if a < k then (a, v) :: (k, w) :: m
    else if a = k then (a, v) :: m
    else (k, w) :: Memory.store a v m

/-! ### Reading and writing one piece of state -/

/-- `x[r]` (R17). -/
def State.reg (s : State) (r : Fin 8) : Byte := s.regs[r.val]

/-- `SP`, another name for `x[7]` (R17, R32). -/
def State.sp (s : State) : Byte := s.reg Config.spIndex

/-- `M[a]` (R17). -/
def State.cell (s : State) (a : Nat) : Option Byte := s.mem.lookup a

/-- `x[r] <- v` (R17). -/
def State.writeReg (s : State) (r : Fin 8) (v : Byte) : State :=
  { s with regs := s.regs.set r.val v }

/-- `SP <- v`. -/
def State.writeSp (s : State) (v : Byte) : State := s.writeReg Config.spIndex v

/-- `MemWrite(a, 1, v)`: every address a byte can hold exists, so it never faults (R19). -/
def State.writeCell (s : State) (a : Byte) (v : Byte) : State :=
  { s with mem := s.mem.store a.toNat v }

/-- `pc <- target` (R23). -/
def State.setPc (s : State) (target : PcWord) : State := { s with pc := target }

/-- `FL <- v`. -/
def State.setFl (s : State) (v : Byte) : State := { s with fl := v }

/-- `emit(v)`: append to `out` (R23, R46). -/
def State.emit (s : State) (v : Byte) : State := { s with out := s.out ++ [v] }

/-- `run_state <- r` (R44). -/
def State.setRunState (s : State) (r : RunState) : State := { s with runState := r }

/-- `started <- 1` (R52, R101). -/
def State.setStarted (s : State) : State := { s with started := true }

/-- The sequential next pc: `pc <- pc + n` (R94, R110). -/
def State.advance (s : State) (n : PcWord) : State := s.setPc (s.pc + n)

/-- Bytes stored at rising addresses from `a`; what would fall above 255 has no cell and is dropped. -/
def State.storeBytes (s : State) (a : Nat) : List Byte → State
  | [] => s
  | b :: bs =>
    if a < Config.memSize then
      State.storeBytes { s with mem := s.mem.store a b } (a + 1) bs
    else s

/-! ### Halting and faulting: the block's only exceptions -/

/-- What a step or an instruction answers. -/
abbrev Result := Host.Outcome State Fault Refusal

/-- `halt(C, info)` (R23). It saves nothing and moves the pc nowhere (R196). -/
def State.halt (s : State) (c : HaltCause) : State := s.setRunState (.halted c)

/-- `raise F(info)`: taking a fault. `run_state <- Faulted(F, info)` and nothing else of the state changes
(R22, R196). There is no return from it: only `rst` leaves a stopped state (R197). -/
def State.raise (s : State) (f : FaultCause) : State := s.setRunState (.faulted f)

/-- Ends an instruction that started in `s`: its completed state, or, when a check failed, the fault taken from
`s` itself, so "no other write of the current instruction takes effect" (R22). -/
def finish (s : State) : Except FaultCause State → Result
  | .ok t => .next t
  | .error f => .next (s.raise f)

end Sys2Proof.Machine
end

