-- ==== Sys2Proof/Machine/Flags.lean ====
section
/-! DEFINITION. The flags register's one flag, "explicit get/set of the Equal bit" (spec 10_state.md R41, R42). -/

namespace Sys2Proof.Machine

/-- `FL.E`, bit 0 of FL (R17, R41). -/
def State.equalFlag (s : State) : Bool := s.fl.getLsbD 0

/-- FL with bit 0 set to `e` and bits 7 to 1 kept (R149). -/
def withEqual (fl : Byte) (e : Bool) : Byte := (fl &&& 0b11111110) ||| (if e then 1 else 0)

/-- `FL.E <- e` (R42, R149). -/
def State.setEqual (s : State) (e : Bool) : State := s.setFl (withEqual s.fl e)

end Sys2Proof.Machine
end

