-- ==== Sys2Proof/Syntax.lean ====
section
/-! DEFINITION. The instructions: one constructor per row of spec/opcode_table.json.
A register operand is kept as the whole operand byte: "Operand bytes are not part of decoding: an
out-of-range register operand is a fault of the execute stage" (30_encoding.md R92, R97). -/

namespace Sys2Proof

/-- The 13 instructions of R11, with the operand bytes of their format (R91), first operand first. -/
inductive Instr where
  /-- `LDI Rr,value` (format F2I, R130). -/
  | ldi (reg value : Byte)
  /-- `PRN Rr` (format F1R, R131). -/
  | prn (reg : Byte)
  /-- `ADD Ra,Rb` (format F2R, R147). -/
  | add (regA regB : Byte)
  /-- `MUL Ra,Rb` (format F2R, R148). -/
  | mul (regA regB : Byte)
  /-- `HLT` (format F0, R175). -/
  | hlt
  /-- `PUSH Rr` (format F1R, R165). -/
  | push (reg : Byte)
  /-- `POP Rr` (format F1R, R166). -/
  | pop (reg : Byte)
  /-- `CALL Rr` (format F1R, R170). -/
  | call (reg : Byte)
  /-- `RET` (format F0, R171). -/
  | ret
  /-- `CMP Ra,Rb` (format F2R, R149). -/
  | cmp (regA regB : Byte)
  /-- `JMP Rr` (format F1R, R172). -/
  | jmp (reg : Byte)
  /-- `JEQ Rr` (format F1R, R173). -/
  | jeq (reg : Byte)
  /-- `JNE Rr` (format F1R, R174). -/
  | jne (reg : Byte)
deriving DecidableEq, Repr

end Sys2Proof
end

