-- ==== Sys2Proof/WellFormed.lean ====
section
/-! DEFINITION. When an instruction's operand bytes are ones the execute stage accepts: every register
operand is a register number 0 to 7 (spec 30_encoding.md R92). An instruction that is not well formed
still decodes and still executes: it faults `RegisterIndex` (R20). -/

namespace Sys2Proof

/-- A register operand byte that names one of R0 to R7 (R92). -/
def isRegByte (b : Byte) : Bool := decide (b.toNat < 8)

/-- Every register operand of the instruction names a register. LDI's `value` byte is any byte (R93). -/
def Instr.wf : Instr → Bool
  | .ldi reg _     => isRegByte reg
  | .prn reg       => isRegByte reg
  | .add regA regB => isRegByte regA && isRegByte regB
  | .mul regA regB => isRegByte regA && isRegByte regB
  | .hlt           => true
  | .push reg      => isRegByte reg
  | .pop reg       => isRegByte reg
  | .call reg      => isRegByte reg
  | .ret           => true
  | .cmp regA regB => isRegByte regA && isRegByte regB
  | .jmp reg       => isRegByte reg
  | .jeq reg       => isRegByte reg
  | .jne reg       => isRegByte reg

end Sys2Proof
end

