-- ==== Sys2Proof/Decode.lean ====
section
/-! DEFINITION. The opcode dispatch decoder and the encoder (spec 30_encoding.md R90 to R97, R107, R109),
both written against the parameter `OPC`. -/

namespace Sys2Proof

/-- The default of `OPC` (R95). PRESUMED by the spec itself (log entry 3, unsafe): the source gives no
opcode byte, the values are the LS-8 ISA's "from general knowledge, not in source" (D3). -/
def opcDefault : OpcMap
  | .ldi  => 0b10000010
  | .prn  => 0b01000111
  | .add  => 0b10100000
  | .mul  => 0b10100010
  | .hlt  => 0b00000001
  | .push => 0b01000101
  | .pop  => 0b01000110
  | .call => 0b01010000
  | .ret  => 0b00010001
  | .cmp  => 0b10100111
  | .jmp  => 0b01010100
  | .jeq  => 0b01010101
  | .jne  => 0b01010110

/-- The instruction formats of R91: what follows the opcode byte, and the instruction those operand
bytes make. -/
inductive Format where
  /-- One byte: the opcode alone. -/
  | f0 (i : Instr)
  /-- Two bytes: opcode, `reg`. -/
  | f1r (mk : Byte → Instr)
  /-- Three bytes: opcode, `regA`, `regB`. -/
  | f2r (mk : Byte → Byte → Instr)
  /-- Three bytes: opcode, `reg`, `value`. -/
  | f2i (mk : Byte → Byte → Instr)

/-- The format of each operation (R91). -/
def Opcode.format : Opcode → Format
  | .ldi  => .f2i .ldi
  | .prn  => .f1r .prn
  | .add  => .f2r .add
  | .mul  => .f2r .mul
  | .hlt  => .f0 .hlt
  | .push => .f1r .push
  | .pop  => .f1r .pop
  | .call => .f1r .call
  | .ret  => .f0 .ret
  | .cmp  => .f2r .cmp
  | .jmp  => .f1r .jmp
  | .jeq  => .f1r .jeq
  | .jne  => .f1r .jne

/-- The instruction length in bytes: "A decoder knows the length of an instruction from its opcode
alone" (R94). -/
def Opcode.length (op : Opcode) : Nat :=
  match op.format with
  | .f0 _  => 1
  | .f1r _ => 2
  | .f2r _ => 3
  | .f2i _ => 3

/-- "The decoder compares the whole opcode byte with each of the 13 `OPC` values" (R109); `none` is an
unrecognized opcode (R96). -/
def decodeOpcode (opc : OpcMap) (b : Byte) : Option Opcode :=
  Opcode.all.find? fun op => opc op == b

/-- Why a byte sequence is no instruction. The first is the block's unrecognized opcode (R96); the other two
are sequences that end too early, which the engine meets only as a faulting operand read (R18). -/
inductive DecodeError where
  | unrecognizedOpcode (b : Byte)
  | noOpcode
  | missingOperand (op : Opcode)
deriving DecidableEq, Repr

/-- The operand bytes in address order (R65, R90), and the bytes after the instruction. -/
def decodeOperands (op : Opcode) (bytes : List Byte) : Except DecodeError (Instr × List Byte) :=
  match op.format, bytes with
  | .f0 i, rest              => .ok (i, rest)
  | .f1r mk, b1 :: rest      => .ok (mk b1, rest)
  | .f2r mk, b1 :: b2 :: rest => .ok (mk b1 b2, rest)
  | .f2i mk, b1 :: b2 :: rest => .ok (mk b1 b2, rest)
  | _, _                     => .error (.missingOperand op)

/-- The instruction at the head of a byte sequence and the bytes after it (R90, R91, R94). -/
def decode (opc : OpcMap) : List Byte → Except DecodeError (Instr × List Byte)
  | [] => .error .noOpcode
  | b :: rest =>
    match decodeOpcode opc b with
    | none => .error (.unrecognizedOpcode b)
    | some op => decodeOperands op rest

/-- The dispatch-table entry of an instruction (R11). -/
def Instr.opcode : Instr → Opcode
  | .ldi _ _ => .ldi
  | .prn _   => .prn
  | .add _ _ => .add
  | .mul _ _ => .mul
  | .hlt     => .hlt
  | .push _  => .push
  | .pop _   => .pop
  | .call _  => .call
  | .ret     => .ret
  | .cmp _ _ => .cmp
  | .jmp _   => .jmp
  | .jeq _   => .jeq
  | .jne _   => .jne

/-- The operand bytes of an instruction: "the first written operand is the byte at `+1`" (R99). -/
def Instr.operands : Instr → List Byte
  | .ldi reg value => [reg, value]
  | .prn reg       => [reg]
  | .add regA regB => [regA, regB]
  | .mul regA regB => [regA, regB]
  | .hlt           => []
  | .push reg      => [reg]
  | .pop reg       => [reg]
  | .call reg      => [reg]
  | .ret           => []
  | .cmp regA regB => [regA, regB]
  | .jmp reg       => [reg]
  | .jeq reg       => [reg]
  | .jne reg       => [reg]

/-- The bytes of an instruction, lowest address first (R90, R91). -/
def encode (opc : OpcMap) (i : Instr) : List Byte := opc i.opcode :: i.operands

/-- The three bytes of a table word, first byte in bits 7 to 0, every bit from `nbits` up zero. -/
def tableBytes (nbits w : Nat) : List Byte :=
  let v := w % 2 ^ nbits
  [BitVec.ofNat 8 v, BitVec.ofNat 8 (v / 256), BitVec.ofNat 8 (v / 65536)]

/-- The instruction the decoder reads from a word numbered as spec/opcode_table.json numbers it. -/
def decodeTableWord (nbits w : Nat) : Option Instr :=
  match decode opcDefault (tableBytes nbits w) with
  | .ok (i, _) => some i
  | .error _ => none

end Sys2Proof
end

