-- ==== Sys2Proof/Machine/Operands.lean ====
section
/-! DEFINITION. Operand reads and register operands (spec 00_scope.md R18, R20; 30_encoding.md R90 to R93), and the
checked stack-pointer steps (42_stack.md R161, R162; 43_control.md R170, R171). -/

namespace Sys2Proof.Machine

/-- `MemRead(a, 1)`, "the only memory read form": the range check, then the unset check (R18). -/
def memRead (s : State) (a : PcWord) : Except FaultCause Byte :=
  if Config.memSize ≤ a.toNat then .error (.operandOutOfRange a)
  else
    match s.cell a.toNat with
    | none => .error (.unsetRead a)
    | some b => .ok b

/-- `RegIdx(b)`: a register operand byte selects R0 to R7 or faults (R20, R92). -/
def regIdx (b : Byte) : Except FaultCause (Fin 8) :=
  if h : b.toNat < 8 then .ok ⟨b.toNat, h⟩ else .error (.registerIndex b)

/-- The operand bytes of the instruction whose opcode is at `pc`, read in address order, for each format
(R91, R106). -/
def readOperands (s : State) : Format → Except FaultCause Instr
  | .f0 i => .ok i
  | .f1r mk => do
    let b1 ← memRead s (s.pc + 1)
    .ok (mk b1)
  | .f2r mk => do
    let b1 ← memRead s (s.pc + 1)
    let b2 ← memRead s (s.pc + 2)
    .ok (mk b1 b2)
  | .f2i mk => do
    let b1 ← memRead s (s.pc + 1)
    let b2 ← memRead s (s.pc + 2)
    .ok (mk b1 b2)

/-- The checked SP decrement of PUSH and CALL: `StackUnderflow(0)` at SP = 0, never a wrap (R161). -/
def spDecrement (s : State) : Except FaultCause State :=
  if s.sp = 0 then .error (.stackUnderflow s.sp) else .ok (s.writeSp (s.sp - 1))

/-- The clamped SP increment of POP: `SP <- min(SP + 1, 244)`, computed exactly (R162). -/
def spIncrementClamped (s : State) : State :=
  s.writeSp (BitVec.ofNat 8 (min (s.sp.toNat + 1) Config.spPopClamp))

/-- The unclamped SP increment of RET: `StackOverflow(255)` at SP = 255 (R171). -/
def spIncrement (s : State) : Except FaultCause State :=
  if s.sp = 255 then .error (.stackOverflow s.sp) else .ok (s.writeSp (s.sp + 1))

/-- CALL's return address `pc + 2`, which must fit a memory byte (R170). -/
def returnAddress (s : State) : Except FaultCause Byte :=
  if 255 < s.pc.toNat + 2 then .error (.returnAddressRange (s.pc + 2))
  else .ok (BitVec.ofNat 8 (s.pc.toNat + 2))

end Sys2Proof.Machine
end

