-- ==== Sys2Proof/Machine/Alu.lean ====
section
/-! DEFINITION. The ALU and its instructions ADD, MUL, CMP (spec 41_alu.md). -/

namespace Sys2Proof.Machine

/-- `sat8(n) = min(n, 255)` (R21). -/
def sat8 (n : Nat) : Byte := BitVec.ofNat 8 (min n Config.satMax)

/-- The outputs of the ALU (R140). -/
structure AluOut where
  result   : Byte
  resultWe : Bool
  eq       : Bool
  eqWe     : Bool
deriving DecidableEq, Repr

/-- The ALU's operation select (R141): 00 add, 01 multiply, 10 compare. -/
def aluAdd : BitVec 2 := 0b00
/-- `0b01` of R141. -/
def aluMul : BitVec 2 := 0b01
/-- `0b10` of R141. -/
def aluCmp : BitVec 2 := 0b10

/-- The combinational ALU (R140 to R145). An output whose write enable is 0 is a free value, and is written
nowhere (log entry 13). -/
def alu (op : BitVec 2) (a b : Byte) : Except FaultCause AluOut :=
  if op = aluAdd then .ok ⟨sat8 (a.toNat + b.toNat), true, Config.aluIdleEq a b, false⟩
  else if op = aluMul then .ok ⟨sat8 (a.toNat * b.toNat), true, Config.aluIdleEq a b, false⟩
  else if op = aluCmp then .ok ⟨Config.aluIdleResult a b, false, decide (a = b), true⟩
  else .error (.unsupportedOperation op)

/-- What the engine writes for the ALU: `x[regA]` under `result_we`, `FL.E` under `eq_we` (R140). -/
def aluWriteBack (s : State) (r : Fin 8) (o : AluOut) : State :=
  let s := if o.resultWe then s.writeReg r o.result else s
  if o.eqWe then s.setEqual o.eq else s

/-- The common handler of format F2R: both register operands in order, the ALU, the write back,
`pc <- pc + 3` (R106, R147 to R149). -/
def aluHandler (op : BitVec 2) (regA regB : Byte) (s : State) : Except FaultCause State := do
  let a ← regIdx regA
  let b ← regIdx regB
  let o ← alu op (s.reg a) (s.reg b)
  .ok ((aluWriteBack s a o).advance 3)

/-- R147: `x[a] <- min(x[a] + x[b], 255)`. -/
def execAdd (regA regB : Byte) (s : State) : Result := finish s (aluHandler aluAdd regA regB s)

/-- R148: `x[a] <- min(x[a] * x[b], 255)`. -/
def execMul (regA regB : Byte) (s : State) : Result := finish s (aluHandler aluMul regA regB s)

/-- R149: `FL[0] <- (x[a] = x[b])`, FL[7:1] unchanged. -/
def execCmp (regA regB : Byte) (s : State) : Result := finish s (aluHandler aluCmp regA regB s)

end Sys2Proof.Machine
end

