-- ==== Sys2Proof/Machine/Control.lean ====
section
/-! DEFINITION. CALL, RET, JMP, JEQ, JNE, HLT (spec 43_control.md). Targets are bytes, neither aligned nor
checked when taken (R176). -/

namespace Sys2Proof.Machine

/-- R170: decrement SP, `M[SP] <- pc + 2`, `pc <- x[r]` with `x[r]` read after the decrement. The underflow check comes
before the return-address check. -/
def execCall (reg : Byte) (s : State) : Result :=
  finish s do
    let r ← regIdx reg
    let s1 ← spDecrement s
    let ra ← returnAddress s
    .ok ((s1.writeCell s1.sp ra).setPc (s1.reg r).toPc)

/-- R171: `pc <- M[SP]`, SP incremented without a clamp. -/
def execRet (s : State) : Result :=
  finish s do
    let t ← memRead s s.sp.toPc
    let s1 ← spIncrement s
    .ok (s1.setPc t.toPc)

/-- R172: `pc <- x[r]`. -/
def execJmp (reg : Byte) (s : State) : Result :=
  finish s do
    let r ← regIdx reg
    .ok (s.setPc (s.reg r).toPc)

/-- The conditional jump: the register operand is checked whether or not the jump is taken (R106, R173, R174). -/
def jumpIf (taken : Bool) (reg : Byte) (s : State) : Except FaultCause State := do
  let r ← regIdx reg
  .ok (s.setPc (if taken then (s.reg r).toPc else s.pc + 2))

/-- R173: jump when `FL[0] = 1`. -/
def execJeq (reg : Byte) (s : State) : Result := finish s (jumpIf s.equalFlag reg s)

/-- R174: jump when `FL[0] = 0`. -/
def execJne (reg : Byte) (s : State) : Result := finish s (jumpIf (!s.equalFlag) reg s)

/-- R175: `run_state <- Halted(HLT, 0)` and `pc <- 257`. -/
def execHlt (s : State) : Result := finish s (.ok ((s.halt .hlt).setPc Config.haltPc))

end Sys2Proof.Machine
end

