-- ==== Sys2Proof/Machine/LoadPrint.lean ====
section
/-! DEFINITION. LDI and PRN (spec 40_load_print.md). Operand bytes are already read (`readOperands`). -/

namespace Sys2Proof.Machine

/-- R130: `x[r] <- value`, whole and unextended (R93); SP is not clamped. -/
def execLdi (reg value : Byte) (s : State) : Result :=
  finish s do
    let r ← regIdx reg
    .ok ((s.writeReg r value).advance 3)

/-- R131: `emit(x[r])`. -/
def execPrn (reg : Byte) (s : State) : Result :=
  finish s do
    let r ← regIdx reg
    .ok ((s.emit (s.reg r)).advance 2)

end Sys2Proof.Machine
end

