-- ==== Sys2Proof/Machine/Stack.lean ====
section
/-! DEFINITION. PUSH and POP (spec 42_stack.md). Effects come in the handler table's order, each reading SP as
it stands at that point (R164). -/

namespace Sys2Proof.Machine

/-- R165: decrement SP, then `M[SP] <- x[r]` with `x[r]` read after the decrement. -/
def execPush (reg : Byte) (s : State) : Result :=
  finish s do
    let r ← regIdx reg
    let s1 ← spDecrement s
    .ok ((s1.writeCell s1.sp (s1.reg r)).advance 2)

/-- R166: `x[r] <- M[SP]`, then the clamped increment of SP as it stands after that write. -/
def execPop (reg : Byte) (s : State) : Result :=
  finish s do
    let r ← regIdx reg
    let v ← memRead s s.sp.toPc
    .ok ((spIncrementClamped (s.writeReg r v)).advance 2)

end Sys2Proof.Machine
end

