-- ==== Sys2Proof/Machine/Dispatch.lean ====
section
/-! DEFINITION. The dispatch table: each instruction's meaning (spec 30_encoding.md R104, R107). -/

namespace Sys2Proof.Machine

def exec (i : Instr) (s : State) : Host.Outcome State Fault Refusal :=
  match i with
  | .ldi reg value => Sys2Proof.Machine.execLdi reg value s
  | .prn reg => Sys2Proof.Machine.execPrn reg s
  | .add regA regB => Sys2Proof.Machine.execAdd regA regB s
  | .mul regA regB => Sys2Proof.Machine.execMul regA regB s
  | .hlt => Sys2Proof.Machine.execHlt s
  | .push reg => Sys2Proof.Machine.execPush reg s
  | .pop reg => Sys2Proof.Machine.execPop reg s
  | .call reg => Sys2Proof.Machine.execCall reg s
  | .ret => Sys2Proof.Machine.execRet s
  | .cmp regA regB => Sys2Proof.Machine.execCmp regA regB s
  | .jmp reg => Sys2Proof.Machine.execJmp reg s
  | .jeq reg => Sys2Proof.Machine.execJeq reg s
  | .jne reg => Sys2Proof.Machine.execJne reg s

end Sys2Proof.Machine
end

