-- ==== Sys2Proof/Machine/Engine.lean ====
section
/-! DEFINITION. The fetch-decode-execute engine (spec 30_encoding.md R101 to R108), for any opcode map. -/

namespace Sys2Proof.Machine

/-- `Fetch()`: the cell at `pc`, which may be unset; `FetchOutOfRange(pc)` at `pc >= 256` (R102). -/
def fetch (s : State) : Except FaultCause (Option Byte) :=
  if Config.memSize ≤ s.pc.toNat then .error (.fetchOutOfRange s.pc) else .ok (s.cell s.pc.toNat)

/-- Fetch, decode and execute exactly one instruction, the priorities of R195 in this order: fetch fault,
unrecognized opcode, operand reads, then the instruction's own checks. -/
def fetchDecodeExecute (opc : OpcMap) (s : State) : Result :=
  match fetch s with
  | .error f => .next (s.raise f)
  | .ok cell =>
    match cell.bind (decodeOpcode opc) with
    | none => .next (s.halt (.unrecognizedOpcode cell))
    | some op =>
      match readOperands s op.format with
      | .error f => .next (s.raise f)
      | .ok i => exec i s

/-- One assertion of the `step` port. While Running it sets `started` and runs one instruction; while Halted or Faulted
it "changes nothing" (R101, R197). -/
def stepWith (opc : OpcMap) (s : State) : Result :=
  match s.runState with
  | .running => fetchDecodeExecute opc s.setStarted
  | .halted _ => .next s
  | .faulted _ => .next s

end Sys2Proof.Machine
end

