-- ==== Sys2Proof/Machine/Step.lean ====
section
/-! DEFINITION. The machine's step, at the default opcode map (spec 30_encoding.md R95, R101). -/

namespace Sys2Proof.Machine

/-- One step of the block (R101) at the default `OPC` (R95). -/
def step (s : State) : Host.Outcome State Fault Refusal := stepWith opcDefault s

/-- The table word's three bytes stored at the pc, where a Running block fetches next; nothing else changes. It stands
for the loader's writes (R74; log entry 6). -/
def State.withFetchWord (s : State) (nbits w : Nat) : State :=
  s.storeBytes s.pc.toNat (tableBytes nbits w)

end Sys2Proof.Machine
end

