-- ==== Sys2Proof/Machine/Loader.lean ====
section
/-! DEFINITION. The loader boundary (spec 20_memory.md R74 to R77; 70_reset_and_hazards.md R222): the block's write port and a
model of the external loader that drives it. -/

namespace Sys2Proof.Machine

/-- One assertion of `load_we`: a write before the first step, no effect after it (R74, R77). -/
def State.loadWrite (s : State) (addr data : Byte) : State :=
  if s.started then s else s.writeCell addr data

/-- The loader's status: not a state of the block (R205). -/
inductive LoadStatus where
  /-- The whole image was presented to the write port (log entry 16). -/
  | ok
  /-- `LOAD_OVERFLOW`: more than 256 bytes (R76). -/
  | overflow
  /-- `LOAD_MALFORMED`: a line is no base-2 numeral of value 0 to 255 (R75). -/
  | malformed
deriving DecidableEq, Repr

/-- The image's bytes written from address `k` on; loading stops where an address would pass 255 (R74, R76).
DESIGN CHOICE (log entry 16, unsafe): on a block that has started, which ignores every write (R77), the status is what it
would be before the first step; the spec gives none. -/
def loadFrom (k : Nat) : List Byte → State → LoadStatus × State
  | [], s => (.ok, s)
  | b :: bs, s =>
    if k < Config.memSize then loadFrom (k + 1) bs (s.loadWrite (BitVec.ofNat 8 k) b)
    else (.overflow, s)

/-- Byte `k` of the image to `M[k]`, from address 0 (R74). -/
def loadImage (image : List Byte) (s : State) : LoadStatus × State := loadFrom 0 image s

/-- "After a LoadOverflow or a malformed image the host does not assert `step`" (R222). It reads the status alone
(log entry 16). -/
def LoadStatus.mayStart : LoadStatus → Bool
  | .ok => true
  | .overflow => false
  | .malformed => false

/-! ### The image text (R75), normative for a loader model -/

/-- The value of a base-2 numeral; `none` at a character other than 0 and 1. -/
def baseTwo (acc : Nat) : List Char → Option Nat
  | [] => some acc
  | '0' :: cs => baseTwo (2 * acc) cs
  | '1' :: cs => baseTwo (2 * acc + 1) cs
  | _ :: _ => none

/-- A line without its comment and without the white space before the comment or the line's end. -/
def lineBody (line : List Char) : List Char :=
  ((line.takeWhile (· ≠ '#')).reverse.dropWhile Char.isWhitespace).reverse

/-- One physical line: `some none` is a blank or comment-only line, which is skipped; `none` is malformed
(R75; log entry 9). -/
def parseLine (line : List Char) : Option (Option Byte) :=
  match lineBody line with
  | [] => some none
  | c :: cs =>
    match baseTwo 0 (c :: cs) with
    | none => none
    | some n => if n < 256 then some (some (BitVec.ofNat 8 n)) else none

/-- The bytes of an image text, in file order; `none` where a line is malformed. -/
def parseImage : List (List Char) → Option (List Byte)
  | [] => some []
  | line :: lines =>
    match parseLine line, parseImage lines with
    | some none, some bs => some bs
    | some (some b), some bs => some (b :: bs)
    | _, _ => none

/-- The loader on an image text: a malformed image is refused, nothing of it is written (R75; log entry 9). -/
def loadText (lines : List (List Char)) (s : State) : LoadStatus × State :=
  match parseImage lines with
  | none => (.malformed, s)
  | some image => loadImage image s

end Sys2Proof.Machine
end

