-- ==== Sys2Proof/Machine/Ports.lean ====
section
/-! DEFINITION. The ports of the block (spec 10_state.md R45, R49 to R51; 60_exceptions.md R191): what the outside world can
do to it, and what it can see of it. -/

namespace Sys2Proof.Machine

/-! ### Status port -/

/-- `state`: 0 Running, 1 Halted, 2 Faulted (R45). -/
def RunState.stateField : RunState → BitVec 2
  | .running => 0
  | .halted _ => 1
  | .faulted _ => 2

/-- `cause`: the code of R191. -/
def RunState.causeField : RunState → Byte
  | .running => 0
  | .halted .hlt => 1
  | .halted (.unrecognizedOpcode _) => 2
  | .faulted (.unsupportedOperation _) => 16
  | .faulted (.fetchOutOfRange _) => 17
  | .faulted (.operandOutOfRange _) => 18
  | .faulted (.unsetRead _) => 19
  | .faulted (.registerIndex _) => 20
  | .faulted (.stackUnderflow _) => 21
  | .faulted (.stackOverflow _) => 22
  | .faulted (.returnAddressRange _) => 23

/-- `info`: the value the cause records (R191); 256 for an unset opcode cell (R103). -/
def RunState.infoField : RunState → PcWord
  | .running => 0
  | .halted .hlt => 0
  | .halted (.unrecognizedOpcode (some b)) => b.toPc
  | .halted (.unrecognizedOpcode none) => 256
  | .faulted (.unsupportedOperation op) => op.setWidth 9
  | .faulted (.fetchOutOfRange pc) => pc
  | .faulted (.operandOutOfRange a) => a
  | .faulted (.unsetRead a) => a
  | .faulted (.registerIndex b) => b.toPc
  | .faulted (.stackUnderflow sp) => sp.toPc
  | .faulted (.stackOverflow sp) => sp.toPc
  | .faulted (.returnAddressRange ra) => ra

/-! ### Inspection ports: functions of the state, so they change none (R50) -/

/-- `insp_x0` .. `insp_x7` (R49). -/
def State.inspReg (s : State) (r : Fin 8) : Byte := s.reg r

/-- `insp_pc` (R49). -/
def State.inspPc (s : State) : PcWord := s.pc

/-- `insp_fl` (R49). -/
def State.inspFl (s : State) : Byte := s.fl

/-- `insp_data` for an `insp_addr`: the cell, with bit 8 set when it is unset (R49). The other bits are then a free
value (log entry 8). -/
def State.inspData (s : State) (addr : Byte) : PcWord :=
  match s.cell addr.toNat with
  | some b => b.toPc
  | none => 256 ||| (Config.inspUnsetLow addr).toPc

/-! ### Inputs -/

/-- What the environment does to the block between two observations: one port asserted, or none (R49, R51; log entry 7). -/
inductive Input where
  | rst
  | load (addr data : Byte)
  | step
  | idle
deriving DecidableEq, Repr

/-- The block's response to one input (R49, R77, R101, R220). -/
def applyInput (P : Params) (s : State) : Input → Result
  | .rst => .next (State.resetWith P.gprInit P.flInit)
  | .load addr data => .next (s.loadWrite addr data)
  | .step => stepWith P.opc s
  | .idle => .next s

/-- A sequence of inputs, first one first. -/
def runInputs (P : Params) : List Input → State → Result
  | [], s => .next s
  | i :: is, s =>
    match applyInput P s i with
    | .next t => runInputs P is t
    | .fault r => .fault r
    | .refused r => .refused r

/-- `out_valid` and `out_data` of one `step` assertion: the value a PRN emits in it, `none` where `out_valid` is 0
(R49, R131). -/
def outPort (opc : OpcMap) (s : State) : Option Byte :=
  match stepWith opc s with
  | .next t => (t.out.drop s.out.length).head?
  | .fault _ => none
  | .refused _ => none

/-- The parameters of R15 at their defaults: the map of R95, and the values of log entries 1 and 2. -/
def defaultParams : Params := ⟨opcDefault, Config.gprInit, Config.flInit⟩

/-- Boot steps (1) and (2) of R222: reset, then the loader. The block may then be stepped where the status
`mayStart`. -/
def boot (P : Params) (image : List Byte) : LoadStatus × State :=
  loadImage image (State.resetWith P.gprInit P.flInit)

end Sys2Proof.Machine
end

