-- ==== Sys2Proof/Safety.lean ====
section
/-! DEFINITION. The words the statements use: frames, bytes standing in memory, and the invariant of every state a block
can be in. -/

namespace Sys2Proof.Machine

/-- Every register outside `ds` holds after what it held before. -/
def RegsSameExcept (ds : List (Fin 8)) (s t : State) : Prop := ∀ r, r ∉ ds → t.reg r = s.reg r

/-- Every cell outside `as` reads after as it read before. -/
def MemSameExcept (as : List Nat) (s t : State) : Prop := ∀ a, a ∉ as → t.cell a = s.cell a

/-- `run_state` and `started` are as before. -/
def StatusSame (s t : State) : Prop := t.runState = s.runState ∧ t.started = s.started

/-- The bytes `bs` stand in memory from address `a` on, all of them inside the address space (R60). -/
def BytesAt (s : State) (a : Nat) (bs : List Byte) : Prop :=
  a + bs.length ≤ Config.memSize ∧ ∀ k (h : k < bs.length), s.cell (a + k) = some bs[k]

/-- The answer is the fault `f` taken from `s`: `run_state` changes and nothing else does (R22, R196). -/
def TakesFault (f : FaultCause) (s : State) (r : Result) : Prop :=
  r = .next { s with runState := .faulted f }

/-- A step of `s` takes the fault `f`: `run_state` and `started` change and nothing else does (R22, R101). -/
def StepFaults (opc : OpcMap) (f : FaultCause) (s : State) : Prop :=
  stepWith opc s = .next { s with started := true, runState := .faulted f }

/-- The instruction, run from a Running state, completes: it answers a next state and no fault is taken. -/
def Completes (i : Instr) (s t : State) : Prop :=
  s.runState = .running ∧ exec i s = .next t ∧ ∀ f, t.runState ≠ .faulted f

/-! ### Renaming general registers (R31) -/

/-- A register operand byte under a renaming of the registers; a byte that names no register stays. -/
def renameByte (p : Equiv.Perm (Fin 8)) (b : Byte) : Byte :=
  if h : b.toNat < 8 then BitVec.ofNat 8 (p ⟨b.toNat, h⟩).val else b

/-- An instruction with every register operand renamed; LDI's `value` is no register operand. -/
def renameInstr (p : Equiv.Perm (Fin 8)) : Instr → Instr
  | .ldi reg value => .ldi (renameByte p reg) value
  | .prn reg       => .prn (renameByte p reg)
  | .add regA regB => .add (renameByte p regA) (renameByte p regB)
  | .mul regA regB => .mul (renameByte p regA) (renameByte p regB)
  | .hlt           => .hlt
  | .push reg      => .push (renameByte p reg)
  | .pop reg       => .pop (renameByte p reg)
  | .call reg      => .call (renameByte p reg)
  | .ret           => .ret
  | .cmp regA regB => .cmp (renameByte p regA) (renameByte p regB)
  | .jmp reg       => .jmp (renameByte p reg)
  | .jeq reg       => .jeq (renameByte p reg)
  | .jne reg       => .jne (renameByte p reg)

/-- `t` is `s` with its registers renamed, and alike in everything else. -/
structure RenamedState (p : Equiv.Perm (Fin 8)) (s t : State) : Prop where
  reg      : ∀ r, t.reg (p r) = s.reg r
  pc       : t.pc = s.pc
  fl       : t.fl = s.fl
  mem      : t.mem = s.mem
  runState : t.runState = s.runState
  out      : t.out = s.out
  started  : t.started = s.started

/-! ### The invariant -/

/-- What R191 says of each fault's recorded value, read off the state the fault leaves (faults are precise, R196). -/
def FaultLegal (s : State) : FaultCause → Prop
  | .unsupportedOperation _ => False
  | .fetchOutOfRange a => a = 256 ∧ s.pc = 256
  | .operandOutOfRange a => a = 256 ∧ (s.pc = 254 ∨ s.pc = 255)
  | .unsetRead a => a.toNat < Config.memSize ∧ s.cell a.toNat = none ∧ (a = s.pc + 1 ∨ a = s.pc + 2 ∨ a = s.sp.toPc)
  | .registerIndex b => 8 ≤ b.toNat ∧ (s.cell (s.pc.toNat + 1) = some b ∨ s.cell (s.pc.toNat + 2) = some b)
  | .stackUnderflow v => v = 0 ∧ s.sp = 0
  | .stackOverflow v => v = 255 ∧ s.sp = 255
  | .returnAddressRange a => a = 256 ∧ s.pc = 254

/-- What holds of every state of a block with opcode map `opc`. -/
structure State.Inv (opc : OpcMap) (s : State) : Prop where
  /-- Memory keeps its canonical form (R60). -/
  memCanonical : s.mem.wf = true
  /-- While Running the pc is at most 256 (R40, R105). -/
  runningPc : s.runState = .running → s.pc.toNat ≤ 256
  /-- The halt sentinel goes with HLT (R175). -/
  haltedPc : s.runState = .halted .hlt → s.pc = Config.haltPc
  /-- An unrecognized opcode stands at the pc, as recorded (R103, R192). -/
  unrecognizedAtPc : ∀ c, s.runState = .halted (.unrecognizedOpcode c) →
    s.pc.toNat < Config.memSize ∧ s.cell s.pc.toNat = c ∧ ∀ op, c ≠ some (opc op)
  /-- A fault records what R191 says. -/
  faultLegal : ∀ f, s.runState = .faulted f → FaultLegal s f
  /-- Only a step leaves Running (R44), and every step sets `started` (R52). -/
  stoppedStarted : s.runState ≠ .running → s.started = true

end Sys2Proof.Machine
end

