-- ==== Sys2Proof/Certificates/Slice0/Obligations.lean ====
section
/-! DEFINITION. The statements for the provers. Each docstring names the rule of the spec it formalises. -/

open Sys2Proof Sys2Proof.Machine

/-! ### What each instruction does, and what it leaves alone -/

/-- R130, R93: LDI loads its value byte whole into any register, R7 included with no clamp, and completes for every
state. -/
def Obligations.LdiLoadsItsValue : Prop :=
  ∀ (s : State) (b v : Byte) (r : Fin 8), b.toNat = r.val →
    ∃ t, exec (.ldi b v) s = .next t ∧ t.reg r = v ∧ t.pc = s.pc + 3 ∧
      RegsSameExcept [r] s t ∧ t.fl = s.fl ∧ t.out = s.out ∧ MemSameExcept [] s t ∧ StatusSame s t

/-- R131: PRN appends the register's value to the output history and changes nothing else. -/
def Obligations.PrnEmitsTheRegister : Prop :=
  ∀ (s : State) (b : Byte) (r : Fin 8), b.toNat = r.val →
    ∃ t, exec (.prn b) s = .next t ∧ t.out = s.out ++ [s.reg r] ∧ t.pc = s.pc + 2 ∧
      RegsSameExcept [] s t ∧ t.fl = s.fl ∧ MemSameExcept [] s t ∧ StatusSame s t

/-- R147: ADD writes min(x[a] + x[b], 255), computed exactly, to its first operand; the two operands may be the same
register, and either may be R7. -/
def Obligations.AddSaturates : Prop :=
  ∀ (s : State) (x y : Byte) (a b : Fin 8), x.toNat = a.val → y.toNat = b.val →
    ∃ t, exec (.add x y) s = .next t ∧
      (t.reg a).toNat = min ((s.reg a).toNat + (s.reg b).toNat) 255 ∧ t.pc = s.pc + 3 ∧
      RegsSameExcept [a] s t ∧ t.fl = s.fl ∧ t.out = s.out ∧ MemSameExcept [] s t ∧ StatusSame s t

/-- R148: MUL writes min(x[a] * x[b], 255), computed exactly, to its first operand. -/
def Obligations.MulSaturates : Prop :=
  ∀ (s : State) (x y : Byte) (a b : Fin 8), x.toNat = a.val → y.toNat = b.val →
    ∃ t, exec (.mul x y) s = .next t ∧
      (t.reg a).toNat = min ((s.reg a).toNat * (s.reg b).toNat) 255 ∧ t.pc = s.pc + 3 ∧
      RegsSameExcept [a] s t ∧ t.fl = s.fl ∧ t.out = s.out ∧ MemSameExcept [] s t ∧ StatusSame s t

/-- R149: CMP sets FL bit 0 to 1 exactly when the operands are equal and keeps bits 7 to 1; no register changes. -/
def Obligations.CmpSetsEqualOnly : Prop :=
  ∀ (s : State) (x y : Byte) (a b : Fin 8), x.toNat = a.val → y.toNat = b.val →
    ∃ t, exec (.cmp x y) s = .next t ∧
      (t.fl.getLsbD 0 = true ↔ s.reg a = s.reg b) ∧
      (∀ k, 1 ≤ k → k ≤ 7 → t.fl.getLsbD k = s.fl.getLsbD k) ∧ t.pc = s.pc + 3 ∧
      RegsSameExcept [] s t ∧ t.out = s.out ∧ MemSameExcept [] s t ∧ StatusSame s t

/-- R165: PUSH from a non-zero SP decrements SP and stores the register, as it stands after the decrement, at the new
SP; that one cell and SP are all that change beside the pc. -/
def Obligations.PushStoresBelowSp : Prop :=
  ∀ (s : State) (b : Byte) (r : Fin 8), b.toNat = r.val → s.sp ≠ 0 →
    ∃ t, exec (.push b) s = .next t ∧
      t.sp.toNat = s.sp.toNat - 1 ∧
      t.cell (s.sp - 1).toNat = some (if r = 7 then s.sp - 1 else s.reg r) ∧
      MemSameExcept [(s.sp - 1).toNat] s t ∧ t.pc = s.pc + 2 ∧
      RegsSameExcept [7] s t ∧ t.fl = s.fl ∧ t.out = s.out ∧ StatusSame s t

/-- R166, R162: POP of a set cell loads it, then increments SP clamped to 244; POP R7 increments and clamps the loaded
value. Memory, the popped cell included, is unchanged. -/
def Obligations.PopLoadsAndClamps : Prop :=
  ∀ (s : State) (b v : Byte) (r : Fin 8), b.toNat = r.val → s.cell s.sp.toNat = some v →
    ∃ t, exec (.pop b) s = .next t ∧
      (r ≠ 7 → t.reg r = v ∧ t.sp.toNat = min (s.sp.toNat + 1) 244) ∧
      (r = 7 → t.sp.toNat = min (v.toNat + 1) 244) ∧ t.pc = s.pc + 2 ∧
      RegsSameExcept [r, 7] s t ∧ t.fl = s.fl ∧ t.out = s.out ∧ MemSameExcept [] s t ∧ StatusSame s t

/-- R170: CALL from a non-zero SP, where the return address fits a byte, stores pc + 2 at the decremented SP and jumps to
the register as it stands after the decrement. -/
def Obligations.CallPushesReturnAddressAndJumps : Prop :=
  ∀ (s : State) (b : Byte) (r : Fin 8), b.toNat = r.val → s.sp ≠ 0 → s.pc.toNat ≤ 253 →
    ∃ t ra, exec (.call b) s = .next t ∧
      t.cell (s.sp - 1).toNat = some ra ∧ ra.toNat = s.pc.toNat + 2 ∧
      t.sp.toNat = s.sp.toNat - 1 ∧
      t.pc.toNat = (if r = 7 then s.sp - 1 else s.reg r).toNat ∧
      MemSameExcept [(s.sp - 1).toNat] s t ∧
      RegsSameExcept [7] s t ∧ t.fl = s.fl ∧ t.out = s.out ∧ StatusSame s t

/-- R171: RET of a set cell, with SP below 255, continues at that cell's value and increments SP without a clamp. -/
def Obligations.RetReturnsToPoppedAddress : Prop :=
  ∀ (s : State) (v : Byte), s.cell s.sp.toNat = some v → s.sp ≠ 255 →
    ∃ t, exec .ret s = .next t ∧ t.pc.toNat = v.toNat ∧ t.sp.toNat = s.sp.toNat + 1 ∧
      RegsSameExcept [7] s t ∧ t.fl = s.fl ∧ t.out = s.out ∧ MemSameExcept [] s t ∧ StatusSame s t

/-- R172: JMP continues at the register's value and changes nothing else. -/
def Obligations.JmpJumpsThroughRegister : Prop :=
  ∀ (s : State) (b : Byte) (r : Fin 8), b.toNat = r.val →
    ∃ t, exec (.jmp b) s = .next t ∧ t.pc.toNat = (s.reg r).toNat ∧
      RegsSameExcept [] s t ∧ t.fl = s.fl ∧ t.out = s.out ∧ MemSameExcept [] s t ∧ StatusSame s t

/-- R173, R174: JEQ jumps exactly when FL bit 0 is 1, JNE exactly when it is 0, and each falls through to pc + 2
otherwise; neither changes anything else. -/
def Obligations.ConditionalJumpsFollowEqual : Prop :=
  ∀ (s : State) (b : Byte) (r : Fin 8), b.toNat = r.val →
    (∃ t, exec (.jeq b) s = .next t ∧
      (s.fl.getLsbD 0 = true → t.pc.toNat = (s.reg r).toNat) ∧
      (s.fl.getLsbD 0 = false → t.pc = s.pc + 2) ∧
      RegsSameExcept [] s t ∧ t.fl = s.fl ∧ t.out = s.out ∧ MemSameExcept [] s t ∧ StatusSame s t) ∧
    (∃ t, exec (.jne b) s = .next t ∧
      (s.fl.getLsbD 0 = false → t.pc.toNat = (s.reg r).toNat) ∧
      (s.fl.getLsbD 0 = true → t.pc = s.pc + 2) ∧
      RegsSameExcept [] s t ∧ t.fl = s.fl ∧ t.out = s.out ∧ MemSameExcept [] s t ∧ StatusSame s t)

/-- R175: HLT halts with cause code 1 and info 0, and leaves 257 in the pc; no register, flag, memory cell or output
changes. -/
def Obligations.HltHaltsAtSentinel : Prop :=
  ∀ s : State, ∃ t, exec .hlt s = .next t ∧
    t.runState.stateField = 1 ∧ t.runState.causeField = 1 ∧ t.runState.infoField = 0 ∧ t.pc.toNat = 257 ∧
    RegsSameExcept [] s t ∧ t.fl = s.fl ∧ t.out = s.out ∧ MemSameExcept [] s t ∧ t.started = s.started

/-! ### When an instruction faults -/

/-- R20, R92 (the spec's decision D11): a register operand byte 0 to 7 selects that register; a byte 8 to 255 faults `RegisterIndex` of that byte, in
every instruction with a register operand, taken jump or not, the first operand before the second. -/
def Obligations.RegisterOperandsAreChecked : Prop :=
  (∀ (b : Byte) (r : Fin 8), b.toNat = r.val → regIdx b = .ok r) ∧
  (∀ (s : State) (b v : Byte), 8 ≤ b.toNat →
    TakesFault (.registerIndex b) s (exec (.ldi b v) s) ∧
    TakesFault (.registerIndex b) s (exec (.prn b) s) ∧
    TakesFault (.registerIndex b) s (exec (.push b) s) ∧
    TakesFault (.registerIndex b) s (exec (.pop b) s) ∧
    TakesFault (.registerIndex b) s (exec (.call b) s) ∧
    TakesFault (.registerIndex b) s (exec (.jmp b) s) ∧
    TakesFault (.registerIndex b) s (exec (.jeq b) s) ∧
    TakesFault (.registerIndex b) s (exec (.jne b) s) ∧
    TakesFault (.registerIndex b) s (exec (.add b v) s) ∧
    TakesFault (.registerIndex b) s (exec (.mul b v) s) ∧
    TakesFault (.registerIndex b) s (exec (.cmp b v) s)) ∧
  (∀ (s : State) (x y : Byte), x.toNat < 8 → 8 ≤ y.toNat →
    TakesFault (.registerIndex y) s (exec (.add x y) s) ∧
    TakesFault (.registerIndex y) s (exec (.mul x y) s) ∧
    TakesFault (.registerIndex y) s (exec (.cmp x y) s))

/-- R161 (the spec's decision D13): PUSH and CALL at SP = 0 raise `StackUnderflow(0)` and write nothing; from any other SP the decrement never
wraps. -/
def Obligations.StackPointerDecrementIsChecked : Prop :=
  ∀ (s : State) (b : Byte), b.toNat < 8 →
    (s.sp = 0 →
      TakesFault (.stackUnderflow 0) s (exec (.push b) s) ∧
      TakesFault (.stackUnderflow 0) s (exec (.call b) s)) ∧
    (s.sp ≠ 0 →
      (∃ t, exec (.push b) s = .next t ∧ t.sp.toNat + 1 = s.sp.toNat) ∧
      (s.pc.toNat ≤ 253 → ∃ t, exec (.call b) s = .next t ∧ t.sp.toNat + 1 = s.sp.toNat))

/-- R166, R170, R171 (the spec's decisions D10, D14, D15): POP and RET of an unset cell raise `UnsetRead(SP)`; RET of a set cell at SP = 255 raises
`StackOverflow(255)`; CALL at pc 254 from a non-zero SP raises `ReturnAddressRange(256)`. -/
def Obligations.StackReadsAndReturnAddressAreChecked : Prop :=
  (∀ (s : State) (b : Byte), b.toNat < 8 → s.cell s.sp.toNat = none →
    TakesFault (.unsetRead s.sp.toPc) s (exec (.pop b) s) ∧
    TakesFault (.unsetRead s.sp.toPc) s (exec .ret s)) ∧
  (∀ (s : State) (v : Byte), s.sp = 255 → s.cell 255 = some v →
    TakesFault (.stackOverflow 255) s (exec .ret s)) ∧
  (∀ (s : State) (b : Byte), b.toNat < 8 → s.sp ≠ 0 → s.pc = 254 →
    TakesFault (.returnAddressRange 256) s (exec (.call b) s))

/-- R22 (the spec's decision D19): a fault changes `run_state` and nothing else; through a step it also sets `started` (R101). -/
def Obligations.FaultsArePrecise : Prop :=
  (∀ (i : Instr) (s t : State) (f : FaultCause), s.runState = .running → exec i s = .next t →
    t.runState = .faulted f → t = { s with runState := .faulted f }) ∧
  (∀ (opc : OpcMap) (s t : State) (f : FaultCause), s.runState = .running → stepWith opc s = .next t →
    t.runState = .faulted f → t = { s with started := true, runState := .faulted f })

/-! ### The engine -/

/-- R101, R104: where the bytes at the pc decode to an instruction, a step of a Running block is that instruction's
meaning, run with `started` set; `step` is that step at the default opcode map. -/
def Obligations.StepRunsDecodedInstruction : Prop :=
  (∀ (opc : OpcMap) (s : State) (bs rest : List Byte) (i : Instr), s.runState = .running →
    BytesAt s s.pc.toNat bs → decode opc bs = .ok (i, rest) →
    stepWith opc s = exec i { s with started := true }) ∧
  (∀ s : State, step s = stepWith opcDefault s)

/-- R96, R103 (the spec's decision D9 for the unset cell): fetching a byte outside the opcode map, or an unset cell, halts
with code 2 and the byte, or 256 for unset, as info, and changes nothing else but `started`. Under the default map (R95,
PRESUMED there, log entry 3) there are 243 such bytes, 0x00 among them. -/
def Obligations.UnrecognizedOpcodeHalts : Prop :=
  ((List.range 256).filter fun n => (decodeOpcode opcDefault (BitVec.ofNat 8 n)).isNone).length = 243 ∧
  decodeOpcode opcDefault 0x00 = none ∧
  (∀ (opc : OpcMap) (s : State) (c : Option Byte), s.runState = .running → s.pc.toNat < 256 →
    s.cell s.pc.toNat = c → (∀ op, c ≠ some (opc op)) →
    ∃ q, stepWith opc s = .next { s with started := true, runState := q } ∧
      q.stateField = 1 ∧ q.causeField = 2 ∧
      (c = none → q.infoField.toNat = 256) ∧ (∀ b, c = some b → q.infoField.toNat = b.toNat))

/-- R195 (the spec's decision D19): the causes of one step in their order of priority. Each clause assumes that none before it holds. -/
def Obligations.FaultPriorityOrder : Prop :=
  ∀ (opc : OpcMap) (s : State), OpcMap.Distinct opc → s.runState = .running →
    -- 1. the fetch
    (256 ≤ s.pc.toNat → StepFaults opc (.fetchOutOfRange s.pc) s) ∧
    -- 2. decode
    (s.pc.toNat < 256 → (∀ op, s.cell s.pc.toNat ≠ some (opc op)) →
      stepWith opc s = .next { s with
        started := true, runState := .halted (.unrecognizedOpcode (s.cell s.pc.toNat)) }) ∧
    (∀ op, s.pc.toNat < 256 → s.cell s.pc.toNat = some (opc op) →
      -- 3. operand byte 1
      (2 ≤ op.length → s.pc = 255 → StepFaults opc (.operandOutOfRange 256) s) ∧
      (2 ≤ op.length → s.pc ≠ 255 → s.cell (s.pc.toNat + 1) = none → StepFaults opc (.unsetRead (s.pc + 1)) s) ∧
      -- 4. operand byte 2
      (∀ b1, op.length = 3 → s.pc.toNat < 255 → s.cell (s.pc.toNat + 1) = some b1 →
        (s.pc = 254 → StepFaults opc (.operandOutOfRange 256) s) ∧
        (s.pc ≠ 254 → s.cell (s.pc.toNat + 2) = none → StepFaults opc (.unsetRead (s.pc + 2)) s)) ∧
      -- 5. the register operands
      (∀ b1, 2 ≤ op.length → s.pc.toNat < 255 → s.cell (s.pc.toNat + 1) = some b1 →
        (op.length = 3 → s.pc.toNat < 254 ∧ s.cell (s.pc.toNat + 2) ≠ none) →
        8 ≤ b1.toNat → StepFaults opc (.registerIndex b1) s) ∧
      (∀ b1 b2, op = .add ∨ op = .mul ∨ op = .cmp → s.pc.toNat < 254 →
        s.cell (s.pc.toNat + 1) = some b1 → s.cell (s.pc.toNat + 2) = some b2 →
        b1.toNat < 8 → 8 ≤ b2.toNat → StepFaults opc (.registerIndex b2) s) ∧
      -- 6. the instruction's own checks
      (∀ b1, s.pc.toNat < 255 → s.cell (s.pc.toNat + 1) = some b1 → b1.toNat < 8 →
        (op = .push → s.sp = 0 → StepFaults opc (.stackUnderflow 0) s) ∧
        (op = .pop → s.cell s.sp.toNat = none → StepFaults opc (.unsetRead s.sp.toPc) s) ∧
        (op = .call → s.sp = 0 → StepFaults opc (.stackUnderflow 0) s) ∧
        (op = .call → s.sp ≠ 0 → s.pc = 254 → StepFaults opc (.returnAddressRange 256) s)) ∧
      (op = .ret → s.cell s.sp.toNat = none → StepFaults opc (.unsetRead s.sp.toPc) s) ∧
      (op = .ret → s.cell s.sp.toNat ≠ none → s.sp = 255 → StepFaults opc (.stackOverflow 255) s) ∧
      -- UNSUPPORTED_OPERATION never holds
      (∀ t o, stepWith opc s = .next t → t.runState ≠ .faulted (.unsupportedOperation o)))

/-- R197, R203 (the spec's decision D26): a stopped block that has started stays exactly as it is under every sequence of
inputs without `rst`, and `rst` makes it Running again. The inputs are the model's `Input`, one port at a time (log entry 7,
DESIGN CHOICE, unsafe for a claim over all input sequences). -/
def Obligations.StoppedBlockIsTerminal : Prop :=
  ∀ (P : Params) (s : State), s.runState ≠ .running → s.started = true →
    (∀ inputs, Input.rst ∉ inputs → runInputs P inputs s = .next s) ∧
    (∃ t, applyInput P s .rst = .next t ∧ t.runState = .running)

/-- R52, R77 (the spec's decision D21): `started` is 0 at reset, set by the first step whatever that step does, never cleared but by reset and read
by nothing but the loader gate; a loader write lands in its cell before the first step and has no effect after it. -/
def Obligations.StartedGatesTheLoader : Prop :=
  (∀ g f, (State.resetWith g f).started = false) ∧
  (∀ (opc : OpcMap) (s : State), s.runState = .running →
    ∃ t, stepWith opc s = .next t ∧ t.started = true ∧ ∀ b, stepWith opc { s with started := b } = .next t) ∧
  (∀ (P : Params) (s t : State) (i : Input), s.started = true → i ≠ .rst → applyInput P s i = .next t →
    t.started = true) ∧
  (∀ (P : Params) (s : State) (a v : Byte), s.started = false →
    ∃ t, applyInput P s (.load a v) = .next t ∧ t.cell a.toNat = some v ∧ MemSameExcept [a.toNat] s t ∧
      RegsSameExcept [] s t ∧ t.pc = s.pc ∧ t.fl = s.fl ∧ t.out = s.out ∧ StatusSame s t) ∧
  (∀ (P : Params) (s : State) (a v : Byte), s.started = true → applyInput P s (.load a v) = .next s)

/-! ### The invariant of every state -/

/-- R221: the reset state satisfies the invariant, for every value of the open reset parameters. -/
def Obligations.ResetStateSatisfiesInvariant : Prop :=
  ∀ (opc : OpcMap) (g : Vector Byte 7) (f : Byte), State.Inv opc (State.resetWith g f)

/-- From every state that satisfies the invariant, a step answers a next state, and that state satisfies it: memory stays
canonical, a Running pc is at most 256, and every halt and fault is one that R191 describes, recorded as R191 says. -/
def Obligations.StepKeepsInvariant : Prop :=
  ∀ (opc : OpcMap) (s : State), State.Inv opc s → ∃ t, stepWith opc s = .next t ∧ State.Inv opc t

/-- Every sequence of port inputs (resets, loader writes, steps) from reset, for every opcode map and every value of the
open parameters, leads to a state that satisfies the invariant. A statement about runs; `StepKeepsInvariant` is the one
about every state. The inputs are the model's `Input`, one port at a time (log entry 7, DESIGN CHOICE, unsafe for a claim
over all input sequences). -/
def Obligations.PortRunsKeepInvariant : Prop :=
  ∀ (P : Params) (inputs : List Input),
    ∃ t, runInputs P inputs (State.resetWith P.gprInit P.flInit) = .next t ∧ State.Inv P.opc t

/-! ### Rules about the whole machine -/

/-- R42: only CMP writes FL and it writes only bit 0; only JEQ and JNE read FL and they read only bit 0. Not reading is said
by two runs: changing FL (for JEQ and JNE, changing bits 7 to 1) changes nothing but FL in the answer. -/
def Obligations.FlagsRegisterDiscipline : Prop :=
  (∀ (i : Instr) (s t : State), exec i s = .next t → (∀ x y, i ≠ .cmp x y) → t.fl = s.fl) ∧
  (∀ (s t : State) (x y : Byte), exec (.cmp x y) s = .next t →
    ∀ k, 1 ≤ k → k ≤ 7 → t.fl.getLsbD k = s.fl.getLsbD k) ∧
  (∀ (i : Instr) (s : State) (v : Byte), ((∃ b, i = .jeq b ∨ i = .jne b) → v.getLsbD 0 = s.fl.getLsbD 0) →
    ∃ t u, exec i s = .next t ∧ exec i { s with fl := v } = .next u ∧ u = { t with fl := u.fl })

/-- R63: only PUSH and CALL write memory, each at most the one byte at the decremented SP. -/
def Obligations.OnlyPushAndCallWriteMemory : Prop :=
  ∀ (i : Instr) (s t : State), exec i s = .next t →
    ((∀ b, i ≠ .push b) → (∀ b, i ≠ .call b) → MemSameExcept [] s t) ∧
    ((∃ b, i = .push b ∨ i = .call b) → MemSameExcept [(s.sp - 1).toNat] s t) ∧
    (Completes i s t → (∃ b, i = .push b ∨ i = .call b) → (t.cell (s.sp - 1).toNat).isSome)

/-- R46: `out` is empty at reset; only PRN appends to it, one value each. R49, R131 (the port is the spec's own decision D2):
a step's output port carries exactly the value the step appends. -/
def Obligations.OnlyPrnExtendsOutput : Prop :=
  (∀ g f, (State.resetWith g f).out = []) ∧
  (∀ (i : Instr) (s t : State), exec i s = .next t → (∀ b, i ≠ .prn b) → t.out = s.out) ∧
  (∀ (b : Byte) (s t : State), Completes (.prn b) s t → ∃ v, t.out = s.out ++ [v]) ∧
  (∀ (opc : OpcMap) (s t : State), stepWith opc s = .next t → t.out = s.out ++ (outPort opc s).toList)

/-- R105 (derived in the spec): from a Running state with pc at most 256, the step leaves the pc above 256 exactly when it halts by HLT, so the
source's loop bound and the explicit state stop at the same instruction. -/
def Obligations.LoopBoundAgreesWithHalt : Prop :=
  ∀ (opc : OpcMap) (s t : State), s.runState = .running → s.pc.toNat ≤ 256 → stepWith opc s = .next t →
    (256 < t.pc.toNat ↔ t.runState = .halted .hlt) ∧ (t.runState = .halted .hlt → t.pc.toNat = 257)

/-- R110: where each completed instruction's next pc comes from. -/
def Obligations.PcSequencerSelectsNextPc : Prop :=
  ∀ (i : Instr) (s t : State), Completes i s t →
    match i with
    | .ldi _ _ | .add _ _ | .mul _ _ | .cmp _ _ => t.pc = s.pc + 3
    | .prn _ | .push _ | .pop _ => t.pc = s.pc + 2
    | .call b => ∃ r : Fin 8, b.toNat = r.val ∧ t.pc = (t.reg r).toPc
    | .jmp b => ∃ r : Fin 8, b.toNat = r.val ∧ t.pc = (s.reg r).toPc
    | .jeq b => ∃ r : Fin 8, b.toNat = r.val ∧
        t.pc = if s.fl.getLsbD 0 = true then (s.reg r).toPc else s.pc + 2
    | .jne b => ∃ r : Fin 8, b.toNat = r.val ∧
        t.pc = if s.fl.getLsbD 0 = false then (s.reg r).toPc else s.pc + 2
    | .ret => ∃ v, s.cell s.sp.toNat = some v ∧ t.pc = v.toPc
    | .hlt => t.pc = 257

/-- What every completed instruction does to SP. Only POP clamps (R69, R162, R163), and POP R7 clamps the loaded value (R164,
R166: the spec's decision D25, log entry 14). PUSH and CALL take one (R161, decision D13), RET adds one (R171, decision
D14), LDI, ADD and MUL write R7 as any register (R130, R147, R148). -/
def Obligations.OnlyPopClampsSp : Prop :=
  ∀ (i : Instr) (s t : State), Completes i s t →
    match i with
    | .push _ | .call _ => t.sp.toNat + 1 = s.sp.toNat
    | .ret => t.sp.toNat = s.sp.toNat + 1
    | .pop b => ∃ v, s.cell s.sp.toNat = some v ∧
        t.sp.toNat = min ((if b = 7 then v else s.sp).toNat + 1) 244
    | .ldi b v => t.sp = if b = 7 then v else s.sp
    | .add x y => ∃ b : Fin 8, y.toNat = b.val ∧
        t.sp.toNat = if x = 7 then min (s.sp.toNat + (s.reg b).toNat) 255 else s.sp.toNat
    | .mul x y => ∃ b : Fin 8, y.toNat = b.val ∧
        t.sp.toNat = if x = 7 then min (s.sp.toNat * (s.reg b).toNat) 255 else s.sp.toNat
    | .prn _ | .cmp _ _ | .jmp _ | .jeq _ | .jne _ | .hlt => t.sp = s.sp

/-- R44, R103, R175 (the spec's decisions D9, D17): a step from Running halts by HLT exactly when the opcode at the pc is HLT's, and halts by an
unrecognized opcode exactly when the cell at the pc is none of the map's; the cell is the one recorded. -/
def Obligations.HaltCausesAreExact : Prop :=
  ∀ (opc : OpcMap) (s t : State), OpcMap.Distinct opc → s.runState = .running → stepWith opc s = .next t →
    (t.runState = .halted .hlt ↔ s.pc.toNat < 256 ∧ s.cell s.pc.toNat = some (opc .hlt)) ∧
    (∀ c, t.runState = .halted (.unrecognizedOpcode c) ↔
      s.pc.toNat < 256 ∧ s.cell s.pc.toNat = c ∧ ∀ op, c ≠ some (opc op))

/-- R31 (the spec's decision D5): R0 to R6 are all alike. Renaming them, in the state and in the instruction's operands, renames the answer and
changes nothing else; R7 alone keeps its place. -/
def Obligations.GeneralRegistersAreInterchangeable : Prop :=
  ∀ (p : Equiv.Perm (Fin 8)), p 7 = 7 → ∀ (i : Instr) (s s' t : State), RenamedState p s s' →
    exec i s = .next t → ∃ t', exec (renameInstr p i) s' = .next t' ∧ RenamedState p t t'

/-- R60, R61: two memories in canonical form whose 256 cells read alike are the same list. -/
def Obligations.MemoryFormIsCanonical : Prop :=
  ∀ m m' : Memory, m.wf = true → m'.wf = true → (∀ a, a < 256 → m.lookup a = m'.lookup a) → m = m'

/-! ### Encoding -/

/-- R109: the decoder compares the whole opcode byte with each of the 13 values of the map, and with nothing else. -/
def Obligations.DecoderMatchesWholeByte : Prop :=
  ∀ opc : OpcMap, OpcMap.Distinct opc → ∀ b : Byte,
    (∀ op, decodeOpcode opc b = some op ↔ b = opc op) ∧
    (decodeOpcode opc b = none ↔ ∀ op, b ≠ opc op)

/-- R90, R91, R95: for every opcode map of 13 distinct bytes, decoding an encoded instruction gives it back with every
operand byte, and leaves the bytes after it. -/
def Obligations.DecodeOfEncode : Prop :=
  ∀ opc : OpcMap, OpcMap.Distinct opc → ∀ (i : Instr) (rest : List Byte),
    decode opc (encode opc i ++ rest) = .ok (i, rest)

/-- R94, R97 (derived in the spec): what decodes is exactly the encoding of the instruction it gives, followed by the rest. -/
def Obligations.DecodeAcceptsOnlyEncodings : Prop :=
  ∀ (opc : OpcMap) (bs rest : List Byte) (i : Instr), decode opc bs = .ok (i, rest) → bs = encode opc i ++ rest

/-- Words written out bit by bit from the formats of R91 and the default map of R95 (PRESUMED there, log entry 3), one of
each format and more. -/
def Obligations.SpecWordsDecode : Prop :=
  decode opcDefault [0b10000010, 0b00000000, 0b00001000] = .ok (.ldi 0 8, []) ∧
  decode opcDefault [0b01000111, 0b00000011] = .ok (.prn 3, []) ∧
  decode opcDefault [0b10100000, 0b00000000, 0b00000001] = .ok (.add 0 1, []) ∧
  decode opcDefault [0b10100111, 0b00000000, 0b00000010] = .ok (.cmp 0 2, []) ∧
  decode opcDefault [0b01000110, 0b00000010] = .ok (.pop 2, []) ∧
  decode opcDefault [0b01010000, 0b00000001] = .ok (.call 1, []) ∧
  decode opcDefault [0b00010001] = .ok (.ret, []) ∧
  decode opcDefault [0b00000001] = .ok (.hlt, [])

/-! ### Reset and the loader -/

/-- R36, R39, R220, R221 (the `rst` port is the spec's decision D27): asserting `rst` in any state puts every element at its
reset value, whatever the open parameters `GPR_INIT` and `FL_INIT` are. -/
def Obligations.ResetPutsConstructionState : Prop :=
  ∀ (P : Params) (s : State), ∃ t, applyInput P s .rst = .next t ∧
    (∀ r : Fin 7, t.reg r.castSucc = P.gprInit[r.val]) ∧ t.reg 7 = 244 ∧ t.pc = 0 ∧ t.fl = P.flInit ∧
    (∀ a, t.cell a = none) ∧ t.runState.stateField = 0 ∧ t.runState.causeField = 0 ∧ t.runState.infoField = 0 ∧
    t.out = [] ∧ t.started = false

/-- R74, R76: byte k of the image goes to M[k], cells the image does not reach stay unset, and nothing else of the reset
state changes; an image of more than 256 bytes leaves its first 256 in memory with the overflow status, and the block is
not started. -/
def Obligations.LoaderPlacesTheImage : Prop :=
  ∀ (P : Params) (image : List Byte), ∃ t,
    boot P image = (if image.length ≤ 256 then .ok else .overflow, t) ∧
    (∀ k, k < 256 → t.cell k = image[k]?) ∧
    ((boot P image).1.mayStart = true ↔ image.length ≤ 256) ∧
    t.regs = (State.resetWith P.gprInit P.flInit).regs ∧ t.pc = 0 ∧ t.fl = P.flInit ∧
    t.runState = .running ∧ t.out = [] ∧ t.started = false

/-- R75 (a value above 255 is the spec's decision D22; blanks are log entry 9): a line of base-2 digits, then blanks, then a `#` comment, is the byte the digits write; a value above 255 is
malformed; a line with no digits is skipped. -/
def Obligations.ImageTextLines : Prop :=
  ∀ (ds : List Bool) (blanks : Nat) (comment : List Char),
    let line := ds.map (fun d => if d then '1' else '0') ++ List.replicate blanks ' ' ++ '#' :: comment
    let n := ds.foldl (fun n d => 2 * n + d.toNat) 0
    (ds = [] → parseLine line = some none) ∧
    (ds ≠ [] → n < 256 → parseLine line = some (some (BitVec.ofNat 8 n))) ∧
    (ds ≠ [] → 256 ≤ n → parseLine line = none)

/-! ### The ALU, the stack and the status port -/

/-- R142 to R144: what the ALU computes for its three operations, with the write enables. -/
def Obligations.AluComputesItsOperations : Prop :=
  (∀ a b : Byte, ∃ o, alu aluAdd a b = .ok o ∧ o.result.toNat = min (a.toNat + b.toNat) 255 ∧
    o.resultWe = true ∧ o.eqWe = false) ∧
  (∀ a b : Byte, ∃ o, alu aluMul a b = .ok o ∧ o.result.toNat = min (a.toNat * b.toNat) 255 ∧
    o.resultWe = true ∧ o.eqWe = false) ∧
  (∀ a b : Byte, ∃ o, alu aluCmp a b = .ok o ∧ (o.eq = true ↔ a = b) ∧ o.eqWe = true ∧ o.resultWe = false)

/-- R141, R145 (the encoding is the spec's decision D23): the selects are 0, 1 and 2; select 3 raises
`UnsupportedOperation(3)` and writes nothing, and no instruction reaches it. -/
def Obligations.AluUnsupportedSelectFaults : Prop :=
  (aluAdd.toNat = 0 ∧ aluMul.toNat = 1 ∧ aluCmp.toNat = 2) ∧
  (∀ (s : State) (x y : Byte), x.toNat < 8 → y.toNat < 8 →
    TakesFault (.unsupportedOperation 3) s (finish s (aluHandler 3 x y s))) ∧
  (∀ (i : Instr) (s t : State) (o : BitVec 2), s.runState = .running → exec i s = .next t →
    t.runState ≠ .faulted (.unsupportedOperation o))

/-- R149, R173, R174: after a CMP, JEQ jumps exactly when the two registers held equal values and JNE exactly when they did
not, whatever FL held before. -/
def Obligations.CompareDecidesBranches : Prop :=
  ∀ (s t : State) (x y z : Byte) (a b r : Fin 8), x.toNat = a.val → y.toNat = b.val → z.toNat = r.val →
    exec (.cmp x y) s = .next t →
    ∃ u w, exec (.jeq z) t = .next u ∧ exec (.jne z) t = .next w ∧
      (s.reg a = s.reg b → u.pc = (s.reg r).toPc ∧ w.pc = t.pc + 2) ∧
      (s.reg a ≠ s.reg b → u.pc = t.pc + 2 ∧ w.pc = (s.reg r).toPc)

/-- R165, R166, C7: PUSH then POP to another register hands over the pushed byte; SP comes back to its value before the
push when that was 1 to 244, and to 244 when it was above. -/
def Obligations.PushPopRoundTrip : Prop :=
  ∀ (s t : State) (x y : Byte) (a b : Fin 8), x.toNat = a.val → y.toNat = b.val → b ≠ 7 → s.sp ≠ 0 →
    exec (.push x) s = .next t →
    ∃ u, exec (.pop y) t = .next u ∧
      u.reg b = (if a = 7 then s.sp - 1 else s.reg a) ∧
      (s.sp.toNat ≤ 244 → u.sp = s.sp) ∧ (244 < s.sp.toNat → u.sp = 244)

/-- R170, R171: a RET from any later state whose SP and return cell are as CALL left them continues after the CALL and
restores SP, whatever the subroutine did elsewhere. -/
def Obligations.CallRetRoundTrip : Prop :=
  ∀ (s t u : State) (x : Byte), Completes (.call x) s t →
    u.sp = t.sp → u.cell u.sp.toNat = t.cell t.sp.toNat →
    ∃ w, exec .ret u = .next w ∧ w.pc = s.pc + 2 ∧ w.sp = s.sp

/-- R164 (the spec's decision D25): with R7 as operand the effects come in the handler table's order: PUSH R7 stores the decremented SP, POP R7
loads and then increments and clamps, CALL R7 jumps to the decremented SP. -/
def Obligations.SpOperandEffectsAreOrdered : Prop :=
  ∀ s : State,
    (s.sp ≠ 0 → ∃ t, exec (.push 7) s = .next t ∧ t.sp = s.sp - 1 ∧ t.cell t.sp.toNat = some t.sp) ∧
    (∀ v, s.cell s.sp.toNat = some v →
      ∃ t, exec (.pop 7) s = .next t ∧ t.sp.toNat = min (v.toNat + 1) 244) ∧
    (s.sp ≠ 0 → s.pc.toNat ≤ 253 →
      ∃ t, exec (.call 7) s = .next t ∧ t.sp = s.sp - 1 ∧ t.pc = t.sp.toPc)

/-- R73 (derived in the spec): the byte that a completed PUSH or CALL writes is what the next fetch of that address sees. -/
def Obligations.StackWritesAreFetched : Prop :=
  ∀ (s t : State) (b : Byte) (r : Fin 8), b.toNat = r.val →
    (Completes (.push b) s t →
      fetch { t with pc := t.sp.toPc } = .ok (some (if r = 7 then s.sp - 1 else s.reg r))) ∧
    (Completes (.call b) s t →
      ∃ ra : Byte, ra.toNat = s.pc.toNat + 2 ∧ fetch { t with pc := t.sp.toPc } = .ok (some ra))

/-- R45, R191 (the codes are the spec's decision D18): what the status port shows in every state that satisfies the invariant: which codes occur with which
`state`, and the value `info` has with each. -/
def Obligations.StatusPortShowsR191 : Prop :=
  ∀ (opc : OpcMap) (s : State), State.Inv opc s →
    (s.runState.stateField = 0 ↔ s.runState.causeField = 0) ∧
    (s.runState.stateField = 1 ↔ s.runState.causeField ∈ [1, 2]) ∧
    (s.runState.stateField = 2 ↔ s.runState.causeField ∈ [17, 18, 19, 20, 21, 22, 23]) ∧
    s.runState.stateField ≠ 3 ∧
    (s.runState.causeField ∈ [0, 1, 21] → s.runState.infoField = 0) ∧
    (s.runState.causeField = 2 →
      s.cell s.pc.toNat = if s.runState.infoField = 256 then none else some (s.runState.infoField.setWidth 8)) ∧
    (s.runState.causeField ∈ [17, 18, 23] → s.runState.infoField = 256) ∧
    (s.runState.causeField = 19 →
      s.runState.infoField.toNat < 256 ∧ s.cell s.runState.infoField.toNat = none) ∧
    (s.runState.causeField = 20 → 8 ≤ s.runState.infoField.toNat ∧ s.runState.infoField.toNat < 256) ∧
    (s.runState.causeField = 22 → s.runState.infoField = 255)
end

