-- ==== Sys2Proof/Laws/Decode.lean ====
section
/-! SUPPORT. The opcode decoder, said once. -/

namespace Sys2Proof

theorem Opcode.mem_all (op : Opcode) : op ∈ Opcode.all := by cases op <;> decide

/-- The decoder answers an operation only for that operation's own byte. -/
theorem decodeOpcode_byte {opc : OpcMap} {b : Byte} {op : Opcode} (h : decodeOpcode opc b = some op) :
    opc op = b := by
  have := List.find?_some h
  simpa using this

theorem decodeOpcode_none_iff {opc : OpcMap} {b : Byte} :
    decodeOpcode opc b = none ↔ ∀ op, opc op ≠ b := by
  simp [decodeOpcode, List.find?_eq_none, Opcode.mem_all]

/-- Every instruction is 1, 2 or 3 bytes long (R90). -/
theorem Opcode.length_bounds (op : Opcode) : 1 ≤ op.length ∧ op.length ≤ 3 := by cases op <;> decide

theorem opcDefault_distinct : OpcMap.Distinct opcDefault := by decide

end Sys2Proof
end

