-- ==== Sys2Proof/Laws/State.lean ====
section
/-! SUPPORT. One lemma per field per update of the state, and what the accessors read after each update. -/

namespace Sys2Proof.Machine

variable (s : State)

@[simp] theorem State.writeReg_regs (r : Fin 8) (v : Byte) : (s.writeReg r v).regs = s.regs.set r.val v := rfl
@[simp] theorem State.writeReg_pc (r : Fin 8) (v : Byte) : (s.writeReg r v).pc = s.pc := rfl
@[simp] theorem State.writeReg_fl (r : Fin 8) (v : Byte) : (s.writeReg r v).fl = s.fl := rfl
@[simp] theorem State.writeReg_mem (r : Fin 8) (v : Byte) : (s.writeReg r v).mem = s.mem := rfl
@[simp] theorem State.writeReg_runState (r : Fin 8) (v : Byte) : (s.writeReg r v).runState = s.runState := rfl
@[simp] theorem State.writeReg_out (r : Fin 8) (v : Byte) : (s.writeReg r v).out = s.out := rfl
@[simp] theorem State.writeReg_started (r : Fin 8) (v : Byte) : (s.writeReg r v).started = s.started := rfl

@[simp] theorem State.writeReg_cell (r : Fin 8) (v : Byte) (k : Nat) : (s.writeReg r v).cell k = s.cell k := rfl
@[simp] theorem State.writeReg_equalFlag (r : Fin 8) (v : Byte) : (s.writeReg r v).equalFlag = s.equalFlag := rfl

@[simp] theorem State.writeSp_regs (v : Byte) : (s.writeSp v).regs = s.regs.set Config.spIndex.val v := rfl
@[simp] theorem State.writeSp_pc (v : Byte) : (s.writeSp v).pc = s.pc := rfl
@[simp] theorem State.writeSp_fl (v : Byte) : (s.writeSp v).fl = s.fl := rfl
@[simp] theorem State.writeSp_mem (v : Byte) : (s.writeSp v).mem = s.mem := rfl
@[simp] theorem State.writeSp_runState (v : Byte) : (s.writeSp v).runState = s.runState := rfl
@[simp] theorem State.writeSp_out (v : Byte) : (s.writeSp v).out = s.out := rfl
@[simp] theorem State.writeSp_started (v : Byte) : (s.writeSp v).started = s.started := rfl

@[simp] theorem State.writeSp_cell (v : Byte) (k : Nat) : (s.writeSp v).cell k = s.cell k := rfl
@[simp] theorem State.writeSp_equalFlag (v : Byte) : (s.writeSp v).equalFlag = s.equalFlag := rfl

@[simp] theorem State.writeCell_regs (a v : Byte) : (s.writeCell a v).regs = s.regs := rfl
@[simp] theorem State.writeCell_pc (a v : Byte) : (s.writeCell a v).pc = s.pc := rfl
@[simp] theorem State.writeCell_fl (a v : Byte) : (s.writeCell a v).fl = s.fl := rfl
@[simp] theorem State.writeCell_mem (a v : Byte) : (s.writeCell a v).mem = s.mem.store a.toNat v := rfl
@[simp] theorem State.writeCell_runState (a v : Byte) : (s.writeCell a v).runState = s.runState := rfl
@[simp] theorem State.writeCell_out (a v : Byte) : (s.writeCell a v).out = s.out := rfl
@[simp] theorem State.writeCell_started (a v : Byte) : (s.writeCell a v).started = s.started := rfl

@[simp] theorem State.writeCell_reg (a v : Byte) (k : Fin 8) : (s.writeCell a v).reg k = s.reg k := rfl
@[simp] theorem State.writeCell_sp (a v : Byte) : (s.writeCell a v).sp = s.sp := rfl
@[simp] theorem State.writeCell_equalFlag (a v : Byte) : (s.writeCell a v).equalFlag = s.equalFlag := rfl

@[simp] theorem State.setPc_regs (p : PcWord) : (s.setPc p).regs = s.regs := rfl
@[simp] theorem State.setPc_pc (p : PcWord) : (s.setPc p).pc = p := rfl
@[simp] theorem State.setPc_fl (p : PcWord) : (s.setPc p).fl = s.fl := rfl
@[simp] theorem State.setPc_mem (p : PcWord) : (s.setPc p).mem = s.mem := rfl
@[simp] theorem State.setPc_runState (p : PcWord) : (s.setPc p).runState = s.runState := rfl
@[simp] theorem State.setPc_out (p : PcWord) : (s.setPc p).out = s.out := rfl
@[simp] theorem State.setPc_started (p : PcWord) : (s.setPc p).started = s.started := rfl

@[simp] theorem State.setPc_reg (p : PcWord) (k : Fin 8) : (s.setPc p).reg k = s.reg k := rfl
@[simp] theorem State.setPc_sp (p : PcWord) : (s.setPc p).sp = s.sp := rfl
@[simp] theorem State.setPc_cell (p : PcWord) (k : Nat) : (s.setPc p).cell k = s.cell k := rfl
@[simp] theorem State.setPc_equalFlag (p : PcWord) : (s.setPc p).equalFlag = s.equalFlag := rfl

@[simp] theorem State.advance_regs (n : PcWord) : (s.advance n).regs = s.regs := rfl
@[simp] theorem State.advance_pc (n : PcWord) : (s.advance n).pc = s.pc + n := rfl
@[simp] theorem State.advance_fl (n : PcWord) : (s.advance n).fl = s.fl := rfl
@[simp] theorem State.advance_mem (n : PcWord) : (s.advance n).mem = s.mem := rfl
@[simp] theorem State.advance_runState (n : PcWord) : (s.advance n).runState = s.runState := rfl
@[simp] theorem State.advance_out (n : PcWord) : (s.advance n).out = s.out := rfl
@[simp] theorem State.advance_started (n : PcWord) : (s.advance n).started = s.started := rfl

@[simp] theorem State.advance_reg (n : PcWord) (k : Fin 8) : (s.advance n).reg k = s.reg k := rfl
@[simp] theorem State.advance_sp (n : PcWord) : (s.advance n).sp = s.sp := rfl
@[simp] theorem State.advance_cell (n : PcWord) (k : Nat) : (s.advance n).cell k = s.cell k := rfl
@[simp] theorem State.advance_equalFlag (n : PcWord) : (s.advance n).equalFlag = s.equalFlag := rfl

@[simp] theorem State.setFl_regs (v : Byte) : (s.setFl v).regs = s.regs := rfl
@[simp] theorem State.setFl_pc (v : Byte) : (s.setFl v).pc = s.pc := rfl
@[simp] theorem State.setFl_fl (v : Byte) : (s.setFl v).fl = v := rfl
@[simp] theorem State.setFl_mem (v : Byte) : (s.setFl v).mem = s.mem := rfl
@[simp] theorem State.setFl_runState (v : Byte) : (s.setFl v).runState = s.runState := rfl
@[simp] theorem State.setFl_out (v : Byte) : (s.setFl v).out = s.out := rfl
@[simp] theorem State.setFl_started (v : Byte) : (s.setFl v).started = s.started := rfl

@[simp] theorem State.setFl_reg (v : Byte) (k : Fin 8) : (s.setFl v).reg k = s.reg k := rfl
@[simp] theorem State.setFl_sp (v : Byte) : (s.setFl v).sp = s.sp := rfl
@[simp] theorem State.setFl_cell (v : Byte) (k : Nat) : (s.setFl v).cell k = s.cell k := rfl

@[simp] theorem State.setEqual_regs (e : Bool) : (s.setEqual e).regs = s.regs := rfl
@[simp] theorem State.setEqual_pc (e : Bool) : (s.setEqual e).pc = s.pc := rfl
@[simp] theorem State.setEqual_fl (e : Bool) : (s.setEqual e).fl = withEqual s.fl e := rfl
@[simp] theorem State.setEqual_mem (e : Bool) : (s.setEqual e).mem = s.mem := rfl
@[simp] theorem State.setEqual_runState (e : Bool) : (s.setEqual e).runState = s.runState := rfl
@[simp] theorem State.setEqual_out (e : Bool) : (s.setEqual e).out = s.out := rfl
@[simp] theorem State.setEqual_started (e : Bool) : (s.setEqual e).started = s.started := rfl

@[simp] theorem State.setEqual_reg (e : Bool) (k : Fin 8) : (s.setEqual e).reg k = s.reg k := rfl
@[simp] theorem State.setEqual_sp (e : Bool) : (s.setEqual e).sp = s.sp := rfl
@[simp] theorem State.setEqual_cell (e : Bool) (k : Nat) : (s.setEqual e).cell k = s.cell k := rfl

@[simp] theorem State.emit_regs (v : Byte) : (s.emit v).regs = s.regs := rfl
@[simp] theorem State.emit_pc (v : Byte) : (s.emit v).pc = s.pc := rfl
@[simp] theorem State.emit_fl (v : Byte) : (s.emit v).fl = s.fl := rfl
@[simp] theorem State.emit_mem (v : Byte) : (s.emit v).mem = s.mem := rfl
@[simp] theorem State.emit_runState (v : Byte) : (s.emit v).runState = s.runState := rfl
@[simp] theorem State.emit_out (v : Byte) : (s.emit v).out = s.out ++ [v] := rfl
@[simp] theorem State.emit_started (v : Byte) : (s.emit v).started = s.started := rfl

@[simp] theorem State.emit_reg (v : Byte) (k : Fin 8) : (s.emit v).reg k = s.reg k := rfl
@[simp] theorem State.emit_sp (v : Byte) : (s.emit v).sp = s.sp := rfl
@[simp] theorem State.emit_cell (v : Byte) (k : Nat) : (s.emit v).cell k = s.cell k := rfl
@[simp] theorem State.emit_equalFlag (v : Byte) : (s.emit v).equalFlag = s.equalFlag := rfl

@[simp] theorem State.setRunState_regs (q : RunState) : (s.setRunState q).regs = s.regs := rfl
@[simp] theorem State.setRunState_pc (q : RunState) : (s.setRunState q).pc = s.pc := rfl
@[simp] theorem State.setRunState_fl (q : RunState) : (s.setRunState q).fl = s.fl := rfl
@[simp] theorem State.setRunState_mem (q : RunState) : (s.setRunState q).mem = s.mem := rfl
@[simp] theorem State.setRunState_runState (q : RunState) : (s.setRunState q).runState = q := rfl
@[simp] theorem State.setRunState_out (q : RunState) : (s.setRunState q).out = s.out := rfl
@[simp] theorem State.setRunState_started (q : RunState) : (s.setRunState q).started = s.started := rfl

@[simp] theorem State.setRunState_reg (q : RunState) (k : Fin 8) : (s.setRunState q).reg k = s.reg k := rfl
@[simp] theorem State.setRunState_sp (q : RunState) : (s.setRunState q).sp = s.sp := rfl
@[simp] theorem State.setRunState_cell (q : RunState) (k : Nat) : (s.setRunState q).cell k = s.cell k := rfl
@[simp] theorem State.setRunState_equalFlag (q : RunState) : (s.setRunState q).equalFlag = s.equalFlag := rfl

@[simp] theorem State.setStarted_regs : s.setStarted.regs = s.regs := rfl
@[simp] theorem State.setStarted_pc : s.setStarted.pc = s.pc := rfl
@[simp] theorem State.setStarted_fl : s.setStarted.fl = s.fl := rfl
@[simp] theorem State.setStarted_mem : s.setStarted.mem = s.mem := rfl
@[simp] theorem State.setStarted_runState : s.setStarted.runState = s.runState := rfl
@[simp] theorem State.setStarted_out : s.setStarted.out = s.out := rfl
@[simp] theorem State.setStarted_started : s.setStarted.started = true := rfl

@[simp] theorem State.setStarted_reg (k : Fin 8) : s.setStarted.reg k = s.reg k := rfl
@[simp] theorem State.setStarted_sp : s.setStarted.sp = s.sp := rfl
@[simp] theorem State.setStarted_cell (k : Nat) : s.setStarted.cell k = s.cell k := rfl
@[simp] theorem State.setStarted_equalFlag : s.setStarted.equalFlag = s.equalFlag := rfl

@[simp] theorem State.halt_regs (c : HaltCause) : (s.halt c).regs = s.regs := rfl
@[simp] theorem State.halt_pc (c : HaltCause) : (s.halt c).pc = s.pc := rfl
@[simp] theorem State.halt_fl (c : HaltCause) : (s.halt c).fl = s.fl := rfl
@[simp] theorem State.halt_mem (c : HaltCause) : (s.halt c).mem = s.mem := rfl
@[simp] theorem State.halt_runState (c : HaltCause) : (s.halt c).runState = .halted c := rfl
@[simp] theorem State.halt_out (c : HaltCause) : (s.halt c).out = s.out := rfl
@[simp] theorem State.halt_started (c : HaltCause) : (s.halt c).started = s.started := rfl

@[simp] theorem State.halt_reg (c : HaltCause) (k : Fin 8) : (s.halt c).reg k = s.reg k := rfl
@[simp] theorem State.halt_sp (c : HaltCause) : (s.halt c).sp = s.sp := rfl
@[simp] theorem State.halt_cell (c : HaltCause) (k : Nat) : (s.halt c).cell k = s.cell k := rfl
@[simp] theorem State.halt_equalFlag (c : HaltCause) : (s.halt c).equalFlag = s.equalFlag := rfl

@[simp] theorem State.raise_regs (f : FaultCause) : (s.raise f).regs = s.regs := rfl
@[simp] theorem State.raise_pc (f : FaultCause) : (s.raise f).pc = s.pc := rfl
@[simp] theorem State.raise_fl (f : FaultCause) : (s.raise f).fl = s.fl := rfl
@[simp] theorem State.raise_mem (f : FaultCause) : (s.raise f).mem = s.mem := rfl
@[simp] theorem State.raise_runState (f : FaultCause) : (s.raise f).runState = .faulted f := rfl
@[simp] theorem State.raise_out (f : FaultCause) : (s.raise f).out = s.out := rfl
@[simp] theorem State.raise_started (f : FaultCause) : (s.raise f).started = s.started := rfl

@[simp] theorem State.raise_reg (f : FaultCause) (k : Fin 8) : (s.raise f).reg k = s.reg k := rfl
@[simp] theorem State.raise_sp (f : FaultCause) : (s.raise f).sp = s.sp := rfl
@[simp] theorem State.raise_cell (f : FaultCause) (k : Nat) : (s.raise f).cell k = s.cell k := rfl
@[simp] theorem State.raise_equalFlag (f : FaultCause) : (s.raise f).equalFlag = s.equalFlag := rfl

/-! ### Registers read after a register write -/

@[simp] theorem State.reg_writeReg (r k : Fin 8) (v : Byte) :
    (s.writeReg r v).reg k = if k = r then v else s.reg k := by
  by_cases h : k = r
  · subst h; simp [State.reg]
  · have h' : r.val ≠ k.val := fun e => h (Fin.ext e.symm)
    simp [State.reg, h, Vector.getElem_set_ne _ _ h']

@[simp] theorem State.reg_writeSp (k : Fin 8) (v : Byte) :
    (s.writeSp v).reg k = if k = Config.spIndex then v else s.reg k :=
  s.reg_writeReg Config.spIndex k v

@[simp] theorem State.sp_writeReg (r : Fin 8) (v : Byte) :
    (s.writeReg r v).sp = if Config.spIndex = r then v else s.sp :=
  s.reg_writeReg r Config.spIndex v

@[simp] theorem State.sp_writeSp (v : Byte) : (s.writeSp v).sp = v := by
  simp [State.sp]

/-! ### The Equal flag -/

theorem withEqual_getLsbD (fl : Byte) (e : Bool) (k : Nat) (hk : k < 8) :
    (withEqual fl e).getLsbD k = if k = 0 then e else fl.getLsbD k := by
  revert fl e
  interval_cases k <;> decide

@[simp] theorem State.equalFlag_setEqual (e : Bool) : (s.setEqual e).equalFlag = e := by
  exact withEqual_getLsbD s.fl e 0 (by decide)

/-- Two states with the same fields are the same state. -/
theorem State.ext_fields {s t : State} (hr : t.regs = s.regs) (hp : t.pc = s.pc) (hf : t.fl = s.fl)
    (hm : t.mem = s.mem) (hq : t.runState = s.runState) (ho : t.out = s.out) (hs : t.started = s.started) :
    t = s := by
  cases s; cases t; simp_all

/-- Two register files that read alike are the same register file. -/
theorem State.regs_ext {s t : State} (h : ∀ r, t.reg r = s.reg r) : t.regs = s.regs :=
  Vector.ext fun i hi => h ⟨i, hi⟩

end Sys2Proof.Machine
end

