-- ==== Sys2Proof/Laws/Memory.lean ====
section
/-! SUPPORT. Memory: read after write, and that every operation keeps the canonical form. -/

namespace Sys2Proof.Machine

/-- Read after write: the stored address gives the stored byte, every other address what it gave. -/
theorem Memory.lookup_store (m : Memory) (a k : Nat) (v : Byte) :
    (Memory.store a v m).lookup k = if k = a then some v else m.lookup k := by
  induction m with
  | nil => rfl
  | cons c m ih =>
    obtain ⟨b, w⟩ := c
    unfold Memory.store
    split
    · rfl
    · split
      · rename_i h; subst h; simp only [Memory.lookup]; split <;> rfl
      · rename_i h1 h2
        simp only [Memory.lookup, ih]
        by_cases hk : k = b
        · simp [hk, Ne.symm h2]
        · simp [hk]

/-- A store keeps the canonical form, from any lower bound the stored address meets. -/
theorem Memory.store_wfFrom {m : Memory} {lo a : Nat} (v : Byte) (h : m.wfFrom lo = true) (hlo : lo ≤ a)
    (ha : a < Config.memSize) : (Memory.store a v m).wfFrom lo = true := by
  induction m generalizing lo with
  | nil => simp_all [Memory.store, Memory.wfFrom]
  | cons c m ih =>
    obtain ⟨b, w⟩ := c
    simp only [Memory.wfFrom, Bool.and_eq_true, decide_eq_true_eq] at h
    obtain ⟨⟨hb, hb'⟩, hm⟩ := h
    unfold Memory.store
    split
    · simp [Memory.wfFrom, hlo, ha, hb', hm]; omega
    · split
      · rename_i e; subst e; simp [Memory.wfFrom, hlo, ha, hm]
      · simp [Memory.wfFrom, hb, hb', ih hm (by omega)]

theorem Memory.store_wf {m : Memory} {a : Nat} (v : Byte) (h : m.wf = true) (ha : a < Config.memSize) :
    (Memory.store a v m).wf = true :=
  Memory.store_wfFrom v h (Nat.zero_le a) ha

/-- Below the bound and above 255 a canonical memory lists nothing. -/
theorem Memory.lookup_none_of_wfFrom {m : Memory} {lo a : Nat} (h : m.wfFrom lo = true)
    (ha : a < lo ∨ Config.memSize ≤ a) : m.lookup a = none := by
  induction m generalizing lo with
  | nil => rfl
  | cons c m ih =>
    obtain ⟨b, w⟩ := c
    simp only [Memory.wfFrom, Bool.and_eq_true, decide_eq_true_eq] at h
    obtain ⟨⟨hb, hb'⟩, hm⟩ := h
    simp only [Memory.lookup]
    rw [if_neg (by omega), ih hm (by omega)]

/-! ### The same, through the state -/

@[simp] theorem State.cell_writeCell (s : State) (a v : Byte) (k : Nat) :
    (s.writeCell a v).cell k = if k = a.toNat then some v else s.cell k :=
  Memory.lookup_store s.mem a.toNat k v

theorem State.writeCell_wf {s : State} (a v : Byte) (h : s.mem.wf = true) :
    (s.writeCell a v).mem.wf = true :=
  Memory.store_wf v h (by simpa using a.isLt)

theorem State.storeBytes_wf {s : State} (a : Nat) (bs : List Byte) (h : s.mem.wf = true) :
    (s.storeBytes a bs).mem.wf = true := by
  induction bs generalizing s a with
  | nil => exact h
  | cons b bs ih =>
    unfold State.storeBytes
    split
    · exact ih (a + 1) (Memory.store_wf b h ‹_›)
    · exact h

theorem State.resetWith_wf (g : Vector Byte 7) (f : Byte) : (State.resetWith g f).mem.wf = true := rfl

theorem State.reset_wf : State.reset.mem.wf = true := rfl

end Sys2Proof.Machine
end

