-- ==== Sys2Proof/Laws/Operands.lean ====
section
/-! SUPPORT. One lemma per shared operation that says once everything it can do. -/

namespace Sys2Proof.Machine

/-- An instruction ends in its completed state, or in the state it began in with a fault taken. -/
theorem finish_next_iff {s t : State} {r : Except FaultCause State} :
    finish s r = .next t ↔ r = .ok t ∨ ∃ f, r = .error f ∧ t = s.raise f := by
  cases r <;> simp [finish, eq_comm]

/-- `MemRead` gives a byte exactly where the address exists and its cell holds that byte. -/
theorem memRead_ok_iff {s : State} {a : PcWord} {b : Byte} :
    memRead s a = .ok b ↔ a.toNat < Config.memSize ∧ s.cell a.toNat = some b := by
  unfold memRead
  split
  · rename_i h; simp [Nat.not_lt.mpr h]
  · split <;> simp_all

/-- `MemRead` faults exactly outside the address space, and on an unset cell inside it. -/
theorem memRead_error_iff {s : State} {a : PcWord} {f : FaultCause} :
    memRead s a = .error f ↔
      (Config.memSize ≤ a.toNat ∧ f = .operandOutOfRange a) ∨
      (a.toNat < Config.memSize ∧ s.cell a.toNat = none ∧ f = .unsetRead a) := by
  unfold memRead
  split
  · rename_i h; simp [Nat.not_lt.mpr h, h, eq_comm]
  · split
    · simp_all [eq_comm]
    · simp_all

theorem Byte.toPc_toNat (b : Byte) : (Byte.toPc b).toNat = b.toNat := by
  simp only [Byte.toPc, BitVec.toNat_setWidth]
  have := b.isLt
  omega

theorem regIdx_ok_iff {b : Byte} {r : Fin 8} : regIdx b = .ok r ↔ b.toNat = r.val := by
  unfold regIdx
  split
  · simp [Fin.ext_iff]
  · have := r.isLt
    simp; omega

theorem regIdx_error_iff {b : Byte} {f : FaultCause} :
    regIdx b = .error f ↔ 8 ≤ b.toNat ∧ f = .registerIndex b := by
  unfold regIdx
  split
  · simp; omega
  · simp [eq_comm]; omega

/-- A register operand byte names a register or faults. -/
theorem regIdx_cases (b : Byte) :
    (∃ r : Fin 8, b.toNat = r.val) ∨ regIdx b = .error (.registerIndex b) := by
  by_cases h : b.toNat < 8
  · exact .inl ⟨⟨b.toNat, h⟩, rfl⟩
  · exact .inr (regIdx_error_iff.mpr ⟨by omega, rfl⟩)

theorem spDecrement_ok_iff {s t : State} :
    spDecrement s = .ok t ↔ s.sp ≠ 0 ∧ t = s.writeSp (s.sp - 1) := by
  unfold spDecrement
  split <;> simp_all [eq_comm]

theorem spDecrement_error_iff {s : State} {f : FaultCause} :
    spDecrement s = .error f ↔ s.sp = 0 ∧ f = .stackUnderflow 0 := by
  unfold spDecrement
  split <;> simp_all [eq_comm]

theorem spIncrement_ok_iff {s t : State} :
    spIncrement s = .ok t ↔ s.sp ≠ 255 ∧ t = s.writeSp (s.sp + 1) := by
  unfold spIncrement
  split <;> simp_all [eq_comm]

theorem spIncrement_error_iff {s : State} {f : FaultCause} :
    spIncrement s = .error f ↔ s.sp = 255 ∧ f = .stackOverflow 255 := by
  unfold spIncrement
  split <;> simp_all [eq_comm]

theorem returnAddress_ok_iff {s : State} {b : Byte} :
    returnAddress s = .ok b ↔ s.pc.toNat + 2 ≤ 255 ∧ b.toNat = s.pc.toNat + 2 := by
  unfold returnAddress
  split
  · simp; omega
  · rw [Except.ok.injEq, ← BitVec.toNat_inj, BitVec.toNat_ofNat]
    omega

theorem returnAddress_error_iff {s : State} {f : FaultCause} :
    returnAddress s = .error f ↔ 255 < s.pc.toNat + 2 ∧ f = .returnAddressRange (s.pc + 2) := by
  unfold returnAddress
  split <;> simp_all [eq_comm]

theorem sat8_toNat (n : Nat) : (sat8 n).toNat = min n 255 := by
  simp only [sat8, Config.satMax, BitVec.toNat_ofNat]
  omega

/-- The handler of format F2R faults on the first bad register operand, else writes what the ALU gives. -/
theorem aluHandler_ok_iff {op : BitVec 2} {x y : Byte} {s t : State} :
    aluHandler op x y s = .ok t ↔
      ∃ a b o, x.toNat = a.val ∧ y.toNat = b.val ∧ alu op (s.reg a) (s.reg b) = .ok o ∧
        t = (aluWriteBack s a o).advance 3 := by
  unfold aluHandler
  constructor
  · intro h
    cases hx : regIdx x with
    | error f => rw [hx] at h; cases h
    | ok a =>
      cases hy : regIdx y with
      | error f => rw [hx, hy] at h; cases h
      | ok b =>
        cases ho : alu op (s.reg a) (s.reg b) with
        | error f => simp only [hx, hy, bind, Except.bind, ho] at h; cases h
        | ok o =>
          simp only [hx, hy, bind, Except.bind, ho, Except.ok.injEq] at h
          exact ⟨a, b, o, regIdx_ok_iff.mp hx, regIdx_ok_iff.mp hy, ho, h.symm⟩
  · rintro ⟨a, b, o, hx, hy, ho, rfl⟩
    simp only [regIdx_ok_iff.mpr hx, regIdx_ok_iff.mpr hy, bind, Except.bind, ho]

theorem jumpIf_ok_iff {c : Bool} {x : Byte} {s t : State} :
    jumpIf c x s = .ok t ↔
      ∃ r : Fin 8, x.toNat = r.val ∧ t = s.setPc (if c then (s.reg r).toPc else s.pc + 2) := by
  unfold jumpIf
  cases hx : regIdx x with
  | error f =>
    have := (regIdx_error_iff.mp hx).1
    simp only [bind, Except.bind, reduceCtorEq, false_iff, not_exists, not_and]
    intro r hr
    have := r.isLt
    omega
  | ok r =>
    have h := regIdx_ok_iff.mp hx
    simp only [bind, Except.bind, Except.ok.injEq]
    constructor
    · rintro rfl; exact ⟨r, h, rfl⟩
    · rintro ⟨k, hk, rfl⟩
      rw [show r = k from Fin.ext (by omega)]

end Sys2Proof.Machine
end

