-- ==== Sys2Proof/Laws/Exec.lean ====
section
/-! SUPPORT. What each instruction answers where it completes, and the one inversion lemma of `exec`: everything a
next state of it can be. -/

namespace Sys2Proof.Machine

/-! ### The ALU's three operations -/

theorem alu_add (a b : Byte) :
    alu aluAdd a b = .ok ⟨sat8 (a.toNat + b.toNat), true, Config.aluIdleEq a b, false⟩ := by
  simp [alu]
theorem alu_mul (a b : Byte) :
    alu aluMul a b = .ok ⟨sat8 (a.toNat * b.toNat), true, Config.aluIdleEq a b, false⟩ := by
  simp [alu, aluMul, aluAdd]
theorem alu_cmp (a b : Byte) :
    alu aluCmp a b = .ok ⟨Config.aluIdleResult a b, false, decide (a = b), true⟩ := by
  simp [alu, aluCmp, aluMul, aluAdd]

/-! ### Small facts about bytes as addresses -/

theorem Byte.toPc_lt (b : Byte) : (Byte.toPc b).toNat < 256 := by rw [Byte.toPc_toNat]; exact b.isLt
theorem byte_pred {a : Byte} (h : a ≠ 0) : (a - 1).toNat = a.toNat - 1 ∧ 1 ≤ a.toNat := by bv_omega
theorem byte_succ {a : Byte} (h : a ≠ 255) : (a + 1).toNat = a.toNat + 1 := by bv_omega

/-! ### One equation per instruction: the completed state -/

theorem exec_ldi {s : State} {x v : Byte} {r : Fin 8} (hx : x.toNat = r.val) :
    exec (.ldi x v) s = .next ((s.writeReg r v).advance 3) := by
  simp [exec, execLdi, finish, regIdx_ok_iff.mpr hx, bind, Except.bind]

theorem exec_prn {s : State} {x : Byte} {r : Fin 8} (hx : x.toNat = r.val) :
    exec (.prn x) s = .next ((s.emit (s.reg r)).advance 2) := by
  simp [exec, execPrn, finish, regIdx_ok_iff.mpr hx, bind, Except.bind]

theorem exec_add {s : State} {x y : Byte} {a b : Fin 8} (hx : x.toNat = a.val) (hy : y.toNat = b.val) :
    exec (.add x y) s = .next
      ((s.writeReg a (sat8 ((s.reg a).toNat + (s.reg b).toNat))).advance 3) := by
  simp [exec, execAdd, finish, aluHandler, regIdx_ok_iff.mpr hx, regIdx_ok_iff.mpr hy, bind, Except.bind,
    alu_add, aluWriteBack]

theorem exec_mul {s : State} {x y : Byte} {a b : Fin 8} (hx : x.toNat = a.val) (hy : y.toNat = b.val) :
    exec (.mul x y) s = .next
      ((s.writeReg a (sat8 ((s.reg a).toNat * (s.reg b).toNat))).advance 3) := by
  simp [exec, execMul, finish, aluHandler, regIdx_ok_iff.mpr hx, regIdx_ok_iff.mpr hy, bind, Except.bind,
    alu_mul, aluWriteBack]

theorem exec_cmp {s : State} {x y : Byte} {a b : Fin 8} (hx : x.toNat = a.val) (hy : y.toNat = b.val) :
    exec (.cmp x y) s = .next
      ((s.setEqual (decide (s.reg a = s.reg b))).advance 3) := by
  simp [exec, execCmp, finish, aluHandler, regIdx_ok_iff.mpr hx, regIdx_ok_iff.mpr hy, bind, Except.bind,
    alu_cmp, aluWriteBack]

theorem exec_push {s : State} {x : Byte} {r : Fin 8} (hx : x.toNat = r.val) (h : s.sp ≠ 0) :
    exec (.push x) s = .next
      (((s.writeSp (s.sp-1)).writeCell (s.sp-1) (if r = 7 then s.sp - 1 else s.reg r)).advance 2) := by
  have : spDecrement s = .ok (s.writeSp (s.sp - 1)) := spDecrement_ok_iff.mpr ⟨h, rfl⟩
  simp [exec, execPush, finish, regIdx_ok_iff.mpr hx, bind, Except.bind, this]

theorem exec_pop {s : State} {x v : Byte} {r : Fin 8} (hx : x.toNat = r.val) (h : s.cell s.sp.toNat = some v) :
    exec (.pop x) s = .next
      ((spIncrementClamped (s.writeReg r v)).advance 2) := by
  have : memRead s s.sp.toPc = .ok v := memRead_ok_iff.mpr ⟨Byte.toPc_lt _, by rwa [Byte.toPc_toNat]⟩
  simp [exec, execPop, finish, regIdx_ok_iff.mpr hx, bind, Except.bind, this]

theorem exec_call {s : State} {x : Byte} {r : Fin 8} (hx : x.toNat = r.val) (h : s.sp ≠ 0) (hp : s.pc.toNat ≤ 253) :
    exec (.call x) s = .next
      (((s.writeSp (s.sp-1)).writeCell (s.sp-1) (BitVec.ofNat 8 (s.pc.toNat + 2))).setPc
        (if r = 7 then s.sp - 1 else s.reg r).toPc) := by
  have h1 : spDecrement s = .ok (s.writeSp (s.sp - 1)) := spDecrement_ok_iff.mpr ⟨h, rfl⟩
  have h2 : returnAddress s = .ok (BitVec.ofNat 8 (s.pc.toNat + 2)) := 
    returnAddress_ok_iff.mpr ⟨by omega, by simp; omega⟩
  simp [exec, execCall, finish, regIdx_ok_iff.mpr hx, bind, Except.bind, h1, h2]

theorem exec_ret {s : State} {v : Byte} (h : s.cell s.sp.toNat = some v) (h1 : s.sp ≠ 255) : exec .ret s =
    .next ((s.writeSp (s.sp + 1)).setPc v.toPc) := by
  have h1 : memRead s s.sp.toPc = .ok v := memRead_ok_iff.mpr ⟨Byte.toPc_lt _, by rwa [Byte.toPc_toNat]⟩
  have h2 : spIncrement s = .ok (s.writeSp (s.sp + 1)) := spIncrement_ok_iff.mpr ⟨by assumption, rfl⟩
  simp [exec, execRet, finish, bind, Except.bind, h1, h2]

theorem exec_jmp {s : State} {x : Byte} {r : Fin 8} (hx : x.toNat = r.val) :
    exec (.jmp x) s = .next (s.setPc (s.reg r).toPc) := by
  simp [exec, execJmp, finish, regIdx_ok_iff.mpr hx, bind, Except.bind]

theorem exec_jeq {s : State} {x : Byte} {r : Fin 8} (hx : x.toNat = r.val) :
    exec (.jeq x) s = .next
      (s.setPc (if s.fl.getLsbD 0 = true then (s.reg r).toPc else s.pc + 2)) := by
  simp [exec, execJeq, jumpIf, finish, regIdx_ok_iff.mpr hx, bind, Except.bind, State.equalFlag]

theorem exec_jne {s : State} {x : Byte} {r : Fin 8} (hx : x.toNat = r.val) :
    exec (.jne x) s = .next
      (s.setPc (if s.fl.getLsbD 0 = false then (s.reg r).toPc else s.pc + 2)) := by
  simp [exec, execJne, jumpIf, finish, regIdx_ok_iff.mpr hx, bind, Except.bind, State.equalFlag]

theorem exec_hlt {s : State} : exec .hlt s = .next ((s.halt .hlt).setPc 257) := rfl

/-- What a completed instruction's next state is (rules R130, R131, R147 to R149, R165, R166, R170 to R175). -/
def InstrEffect (i : Instr) (s t : State) : Prop :=
  match i with
  | .ldi b v => ∃ r : Fin 8, b.toNat = r.val ∧ t = (s.writeReg r v).advance 3
  | .prn b => ∃ r : Fin 8, b.toNat = r.val ∧ t = (s.emit (s.reg r)).advance 2
  | .add x y => ∃ a b : Fin 8, x.toNat = a.val ∧ y.toNat = b.val ∧
      t = (s.writeReg a (sat8 ((s.reg a).toNat + (s.reg b).toNat))).advance 3
  | .mul x y => ∃ a b : Fin 8, x.toNat = a.val ∧ y.toNat = b.val ∧
      t = (s.writeReg a (sat8 ((s.reg a).toNat * (s.reg b).toNat))).advance 3
  | .cmp x y => ∃ a b : Fin 8, x.toNat = a.val ∧ y.toNat = b.val ∧
      t = (s.setEqual (decide (s.reg a = s.reg b))).advance 3
  | .push x => ∃ r : Fin 8, x.toNat = r.val ∧ s.sp ≠ 0 ∧
      t = ((s.writeSp (s.sp-1)).writeCell (s.sp-1) (if r = 7 then s.sp - 1 else s.reg r)).advance 2
  | .pop x => ∃ (r : Fin 8) (v : Byte), x.toNat = r.val ∧ s.cell s.sp.toNat = some v ∧
      t = (spIncrementClamped (s.writeReg r v)).advance 2
  | .call x => ∃ r : Fin 8, x.toNat = r.val ∧ s.sp ≠ 0 ∧ s.pc.toNat ≤ 253 ∧
      t = ((s.writeSp (s.sp-1)).writeCell (s.sp-1) (BitVec.ofNat 8 (s.pc.toNat + 2))).setPc
        (if r = 7 then s.sp - 1 else s.reg r).toPc
  | .ret => ∃ v, s.cell s.sp.toNat = some v ∧ s.sp ≠ 255 ∧ t = (s.writeSp (s.sp + 1)).setPc v.toPc
  | .jmp x => ∃ r : Fin 8, x.toNat = r.val ∧ t = s.setPc (s.reg r).toPc
  | .jeq x => ∃ r : Fin 8, x.toNat = r.val ∧
      t = s.setPc (if s.fl.getLsbD 0 = true then (s.reg r).toPc else s.pc + 2)
  | .jne x => ∃ r : Fin 8, x.toNat = r.val ∧
      t = s.setPc (if s.fl.getLsbD 0 = false then (s.reg r).toPc else s.pc + 2)
  | .hlt => t = (s.halt .hlt).setPc 257

/-- Everything `exec` can answer with a next state: the fault taken from the state it began in, which is never a fetch
fault or an unsupported operation, or the completed instruction. -/
theorem exec_cases {i : Instr} {s t : State} (h : exec i s = .next t) :
    (∃ f, t = s.raise f ∧ (∀ o, f ≠ .unsupportedOperation o) ∧ ∀ a, f ≠ .fetchOutOfRange a) ∨ InstrEffect i s t := by
  cases i with
  | ldi b v =>
    obtain ⟨r, hr⟩ | he := regIdx_cases b
    · right; refine ⟨r, hr, ?_⟩
      rw [exec_ldi hr] at h; injection h with h; exact h.symm
    · left; exact ⟨_, by simpa [exec, execLdi, finish, he, bind, Except.bind, eq_comm] using h,
          by nofun, by nofun⟩
  | prn b =>
    obtain ⟨r, hr⟩ | he := regIdx_cases b
    · right; refine ⟨r, hr, ?_⟩
      rw [exec_prn hr] at h; injection h with h; exact h.symm
    · left; exact ⟨_, by simpa [exec, execPrn, finish, he, bind, Except.bind, eq_comm] using h,
          by nofun, by nofun⟩
  | jmp b =>
    obtain ⟨r, hr⟩ | he := regIdx_cases b
    · right; refine ⟨r, hr, ?_⟩
      rw [exec_jmp hr] at h; injection h with h; exact h.symm
    · left; exact ⟨_, by simpa [exec, execJmp, finish, he, bind, Except.bind, eq_comm] using h,
          by nofun, by nofun⟩
  | jeq b =>
    obtain ⟨r, hr⟩ | he := regIdx_cases b
    · right; refine ⟨r, hr, ?_⟩
      rw [exec_jeq hr] at h; injection h with h; exact h.symm
    · left; exact ⟨_, by simpa [exec, execJeq, jumpIf, finish, he, bind, Except.bind, eq_comm] using h,
          by nofun, by nofun⟩
  | jne b =>
    obtain ⟨r, hr⟩ | he := regIdx_cases b
    · right; refine ⟨r, hr, ?_⟩
      rw [exec_jne hr] at h; injection h with h; exact h.symm
    · left; exact ⟨_, by simpa [exec, execJne, jumpIf, finish, he, bind, Except.bind, eq_comm] using h,
          by nofun, by nofun⟩
  | hlt => right; rw [exec_hlt] at h; injection h with h; exact h.symm
  | add x y =>
    obtain ⟨r, hr⟩ | he := regIdx_cases x
    · obtain ⟨k, hk⟩ | he := regIdx_cases y
      · right; refine ⟨r, k, hr, hk, ?_⟩
        rw [exec_add hr hk] at h; injection h with h; exact h.symm
      · left; exact ⟨_, by simpa [exec, execAdd, aluHandler, finish, regIdx_ok_iff.mpr hr, he, bind, Except.bind, eq_comm] using h,
          by nofun, by nofun⟩
    · left; exact ⟨_, by simpa [exec, execAdd, aluHandler, finish, he, bind, Except.bind, eq_comm] using h,
          by nofun, by nofun⟩
  | mul x y =>
    obtain ⟨r, hr⟩ | he := regIdx_cases x
    · obtain ⟨k, hk⟩ | he := regIdx_cases y
      · right; refine ⟨r, k, hr, hk, ?_⟩
        rw [exec_mul hr hk] at h; injection h with h; exact h.symm
      · left; exact ⟨_, by simpa [exec, execMul, aluHandler, finish, regIdx_ok_iff.mpr hr, he, bind, Except.bind, eq_comm] using h,
          by nofun, by nofun⟩
    · left; exact ⟨_, by simpa [exec, execMul, aluHandler, finish, he, bind, Except.bind, eq_comm] using h,
          by nofun, by nofun⟩
  | cmp x y =>
    obtain ⟨r, hr⟩ | he := regIdx_cases x
    · obtain ⟨k, hk⟩ | he := regIdx_cases y
      · right; refine ⟨r, k, hr, hk, ?_⟩
        rw [exec_cmp hr hk] at h; injection h with h; exact h.symm
      · left; exact ⟨_, by simpa [exec, execCmp, aluHandler, finish, regIdx_ok_iff.mpr hr, he, bind, Except.bind, eq_comm] using h,
          by nofun, by nofun⟩
    · left; exact ⟨_, by simpa [exec, execCmp, aluHandler, finish, he, bind, Except.bind, eq_comm] using h,
          by nofun, by nofun⟩
  | push b =>
    obtain ⟨r, hr⟩ | he := regIdx_cases b
    · by_cases h0 : s.sp = 0
      · left; exact ⟨_, by simpa [exec, execPush, finish, regIdx_ok_iff.mpr hr, spDecrement_error_iff.mpr ⟨h0, rfl⟩, bind, Except.bind, eq_comm] using h,
          by nofun, by nofun⟩
      · right; refine ⟨r, hr, h0, ?_⟩
        rw [exec_push hr h0] at h; injection h with h; exact h.symm
    · left; exact ⟨_, by simpa [exec, execPush, finish, he, bind, Except.bind, eq_comm] using h,
          by nofun, by nofun⟩
  | pop b =>
    obtain ⟨r, hr⟩ | he := regIdx_cases b
    · cases hc : s.cell s.sp.toNat with
      | none =>
        have := memRead_error_iff.mpr (Or.inr ⟨Byte.toPc_lt s.sp, by rwa [Byte.toPc_toNat], rfl⟩)
        left; exact ⟨_, by simpa [exec, execPop, finish, regIdx_ok_iff.mpr hr, this, bind, Except.bind, eq_comm] using h,
          by nofun, by nofun⟩
      | some v =>
        right; refine ⟨r, v, hr, hc, ?_⟩
        rw [exec_pop hr hc] at h; injection h with h; exact h.symm
    · left; exact ⟨_, by simpa [exec, execPop, finish, he, bind, Except.bind, eq_comm] using h,
          by nofun, by nofun⟩
  | call b =>
    obtain ⟨r, hr⟩ | he := regIdx_cases b
    · by_cases h0 : s.sp = 0
      · left; exact ⟨_, by simpa [exec, execCall, finish, regIdx_ok_iff.mpr hr, spDecrement_error_iff.mpr ⟨h0, rfl⟩, bind, Except.bind, eq_comm] using h,
          by nofun, by nofun⟩
      · by_cases hp : s.pc.toNat ≤ 253
        · right; refine ⟨r, hr, h0, hp, ?_⟩
          rw [exec_call hr h0 hp] at h; injection h with h; exact h.symm
        · left; exact ⟨_, by simpa [exec, execCall, finish, regIdx_ok_iff.mpr hr, 
              spDecrement_ok_iff.mpr ⟨h0, rfl⟩, returnAddress_error_iff.mpr (⟨by omega, rfl⟩ : 255 < s.pc.toNat + 2 ∧ _),
              bind, Except.bind, eq_comm] using h,
          by nofun, by nofun⟩
    · left; exact ⟨_, by simpa [exec, execCall, finish, he, bind, Except.bind, eq_comm] using h,
          by nofun, by nofun⟩
  | ret =>
    cases hc : s.cell s.sp.toNat with
    | none =>
      have := memRead_error_iff.mpr (Or.inr ⟨Byte.toPc_lt s.sp, by rwa [Byte.toPc_toNat], rfl⟩)
      left; exact ⟨_, by simpa [exec, execRet, finish, this, bind, Except.bind, eq_comm] using h,
          by nofun, by nofun⟩
    | some v =>
      have h1 : memRead s s.sp.toPc = .ok v := memRead_ok_iff.mpr ⟨Byte.toPc_lt _, by rwa [Byte.toPc_toNat]⟩
      by_cases h2 : s.sp = 255
      · left; exact ⟨_, by simpa [exec, execRet, finish, h1, spIncrement_error_iff.mpr ⟨h2, rfl⟩, bind, Except.bind, eq_comm] using h,
          by nofun, by nofun⟩
      · right; refine ⟨v, hc, h2, ?_⟩
        rw [exec_ret hc h2] at h; injection h with h; exact h.symm

/-- No instruction answers a refusal or a fault of the model: `exec` always answers a next state. -/
theorem exec_answers_next (i : Instr) (s : State) : ∃ t, exec i s = .next t := by
  cases h : exec i s with
  | next t => exact ⟨t, rfl⟩
  | fault r => cases r
  | refused r =>
    exfalso
    cases i <;> simp [exec, execLdi, execPrn, execPush, execPop, execCall,
      execJmp, execJeq, execJne, execAdd, execMul, execCmp, execRet, execHlt, finish] at h <;>
      split at h <;> simp at h

end Sys2Proof.Machine
end

