-- ==== Sys2Proof/Laws/Engine.lean ====
section
/-! SUPPORT. The engine, said once: what the fetch, the operand reads and a step can do. -/

namespace Sys2Proof.Machine

theorem fetch_ok_iff {s : State} {c : Option Byte} :
    fetch s = .ok c ↔ s.pc.toNat < 256 ∧ c = s.cell s.pc.toNat := by
  unfold fetch
  split
  · rename_i h; simp [Nat.not_lt.mpr h]
  · rename_i h; simp [Nat.not_le.mp h, eq_comm]

theorem fetch_error_iff {s : State} {f : FaultCause} :
    fetch s = .error f ↔ 256 ≤ s.pc.toNat ∧ f = .fetchOutOfRange s.pc := by
  unfold fetch
  split
  · rename_i h; simp [h, eq_comm]
  · rename_i h; simp [h]

/-- Two operand reads give a pair of bytes exactly where each gives its byte. -/
theorem readOperands_two_ok {s : State} {mk : Byte → Byte → Instr} {i : Instr}
    (h : readOperands s (.f2r mk) = .ok i) :
    ∃ b1 b2, memRead s (s.pc + 1) = .ok b1 ∧ memRead s (s.pc + 2) = .ok b2 ∧ i = mk b1 b2 := by
  simp only [readOperands, bind, Except.bind] at h
  cases h1 : memRead s (s.pc + 1) with
  | error f => rw [h1] at h; cases h
  | ok b1 =>
    cases h2 : memRead s (s.pc + 2) with
    | error f => simp only [h1, h2, reduceCtorEq] at h
    | ok b2 => simp only [h1, h2, Except.ok.injEq] at h; exact ⟨b1, b2, rfl, rfl, h.symm⟩

/-- The operand reads of a recognized opcode give an instruction of that opcode, its operand bytes read at pc + 1 and
pc + 2. -/
theorem readOperands_ok {s : State} {op : Opcode} {i : Instr} (h : readOperands s op.format = .ok i) :
    i.opcode = op ∧
    (∀ b1 b2, i.operands = [b1] ∨ i.operands = [b1, b2] → memRead s (s.pc + 1) = .ok b1) ∧
    (∀ b1 b2, i.operands = [b1, b2] → memRead s (s.pc + 2) = .ok b2) := by
  cases op
  case hlt | ret => injection h with h; subst h; simp [Instr.opcode, Instr.operands]
  case prn | push | pop | call | jmp | jeq | jne =>
    simp only [Opcode.format, readOperands, bind, Except.bind] at h
    cases h1 : memRead s (s.pc + 1) with
    | error f => rw [h1] at h; cases h
    | ok b => rw [h1] at h; injection h with h; subst h; simp [Instr.opcode, Instr.operands]
  case ldi | add | mul | cmp =>
    obtain ⟨b1, b2, h1, h2, rfl⟩ := readOperands_two_ok h
    refine ⟨rfl, fun c1 c2 h => ?_, fun c1 c2 h => ?_⟩ <;> simp [Instr.operands] at h
    · exact h.1 ▸ h1
    · exact h.2 ▸ h2

/-- The read of the operand byte at pc + k, for an instruction whose earlier bytes are inside memory, faults only at
address 256 or on an unset cell. -/
theorem operandRead_error {s : State} {k : PcWord} {f : FaultCause} (hp : s.pc.toNat < 256)
    (hk : k = 1 ∨ k = 2 ∧ s.pc ≠ 255) (h : memRead s (s.pc + k) = .error f) :
    (f = .operandOutOfRange 256 ∧ (s.pc = 254 ∨ s.pc = 255)) ∨
    (f = .unsetRead (s.pc + k) ∧ (s.pc + k).toNat < 256 ∧ s.cell (s.pc + k).toNat = none) := by
  rcases memRead_error_iff.mp h with ⟨h1, rfl⟩ | ⟨h1, h2, rfl⟩
  · left
    simp only [Config.memSize] at h1
    rcases hk with rfl | ⟨rfl, hk⟩
    · have : s.pc = 255 := by bv_omega
      simp [this]
    · have : s.pc = 254 := by bv_omega
      simp [this]
  · exact .inr ⟨rfl, h1, h2⟩

/-- The operand reads of an instruction whose opcode is in memory fault only at address 256 or on an unset operand
cell. -/
theorem readOperands_error {s : State} {fm : Format} {f : FaultCause} (hp : s.pc.toNat < 256)
    (h : readOperands s fm = .error f) :
    (f = .operandOutOfRange 256 ∧ (s.pc = 254 ∨ s.pc = 255)) ∨
    ∃ a, f = .unsetRead a ∧ a.toNat < 256 ∧ s.cell a.toNat = none ∧ (a = s.pc + 1 ∨ a = s.pc + 2) := by
  have first : ∀ g, memRead s (s.pc + 1) = .error g →
      (g = .operandOutOfRange 256 ∧ (s.pc = 254 ∨ s.pc = 255)) ∨
      ∃ a, g = .unsetRead a ∧ a.toNat < 256 ∧ s.cell a.toNat = none ∧ (a = s.pc + 1 ∨ a = s.pc + 2) := by
    intro g hg
    exact (operandRead_error hp (.inl rfl) hg).imp id fun ⟨e, l, c⟩ => ⟨_, e, l, c, .inl rfl⟩
  have second : ∀ b g, memRead s (s.pc + 1) = .ok b → memRead s (s.pc + 2) = .error g →
      (g = .operandOutOfRange 256 ∧ (s.pc = 254 ∨ s.pc = 255)) ∨
      ∃ a, g = .unsetRead a ∧ a.toNat < 256 ∧ s.cell a.toNat = none ∧ (a = s.pc + 1 ∨ a = s.pc + 2) := by
    intro b g hb hg
    have h255 : s.pc ≠ 255 := by
      intro e
      have := (memRead_ok_iff.mp hb).1
      rw [e] at this
      exact absurd this (by decide)
    exact (operandRead_error hp (.inr ⟨rfl, h255⟩) hg).imp id fun ⟨e, l, c⟩ => ⟨_, e, l, c, .inr rfl⟩
  cases fm <;> simp only [readOperands, bind, Except.bind, reduceCtorEq] at h
  case f1r mk =>
    cases h1 : memRead s (s.pc + 1) with
    | error g => simp only [h1, Except.error.injEq] at h; exact first f (h ▸ h1)
    | ok b => simp only [h1, reduceCtorEq] at h
  case f2r mk | f2i mk =>
    cases h1 : memRead s (s.pc + 1) with
    | error g => simp only [h1, Except.error.injEq] at h; exact first f (h ▸ h1)
    | ok b =>
      cases h2 : memRead s (s.pc + 2) with
      | error g => simp only [h1, h2, Except.error.injEq] at h; exact second b f h1 (h ▸ h2)
      | ok c => simp only [h1, h2, reduceCtorEq] at h

/-- Everything one step of a Running block can do (R101 to R104): the fetch fault, the unrecognized opcode, an operand
fault, or the instruction's meaning. -/
theorem stepWith_running_cases {opc : OpcMap} {s t : State} (hr : s.runState = .running)
    (h : stepWith opc s = .next t) :
    (256 ≤ s.pc.toNat ∧ t = s.setStarted.raise (.fetchOutOfRange s.pc)) ∨
    (s.pc.toNat < 256 ∧ (∀ op, s.cell s.pc.toNat ≠ some (opc op)) ∧
      t = s.setStarted.halt (.unrecognizedOpcode (s.cell s.pc.toNat))) ∨
    (s.pc.toNat < 256 ∧ ∃ op, s.cell s.pc.toNat = some (opc op) ∧
      ((∃ f, readOperands s.setStarted op.format = .error f ∧ t = s.setStarted.raise f) ∨
        ∃ i, readOperands s.setStarted op.format = .ok i ∧ exec i s.setStarted = .next t)) := by
  simp only [stepWith, hr, fetchDecodeExecute] at h
  cases hf : fetch s.setStarted with
  | error f =>
    left
    obtain ⟨hp, rfl⟩ := fetch_error_iff.mp hf
    rw [hf] at h; injection h with h; exact ⟨hp, h.symm⟩
  | ok c =>
    right
    obtain ⟨hp, rfl⟩ := fetch_ok_iff.mp hf
    rw [hf] at h
    simp only [State.setStarted_cell, State.setStarted_pc] at h hp
    cases hc : (s.cell s.pc.toNat).bind (decodeOpcode opc) with
    | none =>
      left
      simp only [hc] at h; injection h with h
      refine ⟨hp, ?_, h.symm⟩
      intro op ho
      rw [ho] at hc
      exact decodeOpcode_none_iff.mp hc op rfl
    | some op =>
      right
      simp only [hc] at h
      obtain ⟨b, hb, hd⟩ := Option.bind_eq_some_iff.mp hc
      refine ⟨hp, op, by rw [hb, decodeOpcode_byte hd], ?_⟩
      cases hro : readOperands s.setStarted op.format with
      | error f => left; simp only [hro] at h; injection h with h; exact ⟨f, rfl, h.symm⟩
      | ok i => right; simp only [hro] at h; exact ⟨i, rfl, h⟩

/-- Decoding an operation's own byte gives that operation, for a map of distinct bytes. -/
theorem decodeOpcode_self {opc : OpcMap} (hd : OpcMap.Distinct opc) (op : Opcode) :
    decodeOpcode opc (opc op) = some op := by
  cases h : decodeOpcode opc (opc op) with
  | none => exact absurd rfl (decodeOpcode_none_iff.mp h op)
  | some k => rw [List.inj_on_of_nodup_map hd (Opcode.mem_all k) (Opcode.mem_all op) (decodeOpcode_byte h)]

end Sys2Proof.Machine
end

