-- ==== Sys2Proof/Laws/PerInstr.lean ====
section
/-! SUPPORT. Statements for every instruction, one lemma per constructor. -/

namespace Sys2Proof.Laws

/-- R94: an instruction's encoding has the length its opcode alone determines, and that is 1, 2 or 3 bytes, whatever
the opcode map. -/
def EncodedLength.Statement (i : Instr) : Prop :=
  ∀ opc : OpcMap, (encode opc i).length = i.opcode.length ∧ 1 ≤ i.opcode.length ∧ i.opcode.length ≤ 3

theorem EncodedLength.ldi (reg value : Byte) : EncodedLength.Statement (.ldi reg value) := fun _ => ⟨rfl, Opcode.length_bounds _⟩
theorem EncodedLength.prn (reg : Byte) : EncodedLength.Statement (.prn reg) := fun _ => ⟨rfl, Opcode.length_bounds _⟩
theorem EncodedLength.add (regA regB : Byte) : EncodedLength.Statement (.add regA regB) := fun _ => ⟨rfl, Opcode.length_bounds _⟩
theorem EncodedLength.mul (regA regB : Byte) : EncodedLength.Statement (.mul regA regB) := fun _ => ⟨rfl, Opcode.length_bounds _⟩
theorem EncodedLength.hlt : EncodedLength.Statement .hlt := fun _ => ⟨rfl, Opcode.length_bounds _⟩
theorem EncodedLength.push (reg : Byte) : EncodedLength.Statement (.push reg) := fun _ => ⟨rfl, Opcode.length_bounds _⟩
theorem EncodedLength.pop (reg : Byte) : EncodedLength.Statement (.pop reg) := fun _ => ⟨rfl, Opcode.length_bounds _⟩
theorem EncodedLength.call (reg : Byte) : EncodedLength.Statement (.call reg) := fun _ => ⟨rfl, Opcode.length_bounds _⟩
theorem EncodedLength.ret : EncodedLength.Statement .ret := fun _ => ⟨rfl, Opcode.length_bounds _⟩
theorem EncodedLength.cmp (regA regB : Byte) : EncodedLength.Statement (.cmp regA regB) := fun _ => ⟨rfl, Opcode.length_bounds _⟩
theorem EncodedLength.jmp (reg : Byte) : EncodedLength.Statement (.jmp reg) := fun _ => ⟨rfl, Opcode.length_bounds _⟩
theorem EncodedLength.jeq (reg : Byte) : EncodedLength.Statement (.jeq reg) := fun _ => ⟨rfl, Opcode.length_bounds _⟩
theorem EncodedLength.jne (reg : Byte) : EncodedLength.Statement (.jne reg) := fun _ => ⟨rfl, Opcode.length_bounds _⟩

end Sys2Proof.Laws
end

