-- ==== Sys2Proof/Tests/Slice0.lean ====
section
/-! SUPPORT. The model's own tests. Expected results are those of spec 95_test_vectors.md (the vector is named at each
test) or words written out from the formats of 30_encoding.md R91 and R95; then one witness for the hypotheses of every
statement. -/

namespace Sys2Proof.Tests

open Sys2Proof.Machine

/-- A Running block that has not started: registers, pc, FL, and bytes stored from the pc on and at one more address. -/
def box (regs : Vector Byte 8) (pc : PcWord) (fl : Byte) (code : List Byte) (extra : Memory) : State :=
  State.storeBytes
    { regs := regs, pc := pc, fl := fl, mem := extra, runState := .running, out := [], started := false }
    pc.toNat code

def nextOf : Result → Option State
  | .next t => some t
  | .fault _ => none
  | .refused _ => none

/-- What one step makes of `s`, seen through `f`. -/
def after {α : Type} (f : State → α) (s : State) : Option α := (nextOf (step s)).map f

def cause (s : State) : Byte × PcWord := (s.runState.causeField, s.runState.infoField)

/-! ### WellFormed refuses each ill-formed operand -/

theorem test_wf_ldi : (Instr.ldi 8 0).wf = false ∧ (Instr.ldi 7 255).wf = true := by decide
theorem test_wf_prn : (Instr.prn 8).wf = false ∧ (Instr.prn 7).wf = true := by decide
theorem test_wf_add : (Instr.add 8 0).wf = false ∧ (Instr.add 0 8).wf = false ∧ (Instr.add 7 7).wf = true := by decide
theorem test_wf_mul : (Instr.mul 255 0).wf = false ∧ (Instr.mul 0 255).wf = false := by decide
theorem test_wf_cmp : (Instr.cmp 8 0).wf = false ∧ (Instr.cmp 0 8).wf = false := by decide
theorem test_wf_push : (Instr.push 8).wf = false := by decide
theorem test_wf_pop : (Instr.pop 8).wf = false := by decide
theorem test_wf_call : (Instr.call 8).wf = false := by decide
theorem test_wf_jmp : (Instr.jmp 8).wf = false := by decide
theorem test_wf_jeq : (Instr.jeq 8).wf = false := by decide
theorem test_wf_jne : (Instr.jne 128).wf = false := by decide

/-! ### Every row's word, written from the spec's encoding, decodes to its instruction (first byte in bits 7 to 0) -/

theorem test_decode_ldi : decodeTableWord 24 0b11111110_00000101_10000010 = some (.ldi 5 254) := by decide
theorem test_decode_prn : decodeTableWord 16 0b00000011_01000111 = some (.prn 3) := by decide
theorem test_decode_add : decodeTableWord 24 0b00000010_00000001_10100000 = some (.add 1 2) := by decide
theorem test_decode_mul : decodeTableWord 24 0b00000010_00000001_10100010 = some (.mul 1 2) := by decide
theorem test_decode_hlt : decodeTableWord 8 0b00000001 = some .hlt := by decide
theorem test_decode_push : decodeTableWord 16 0b00000110_01000101 = some (.push 6) := by decide
theorem test_decode_pop : decodeTableWord 16 0b00000110_01000110 = some (.pop 6) := by decide
theorem test_decode_call : decodeTableWord 16 0b00000001_01010000 = some (.call 1) := by decide
theorem test_decode_ret : decodeTableWord 8 0b00010001 = some .ret := by decide
theorem test_decode_cmp : decodeTableWord 24 0b00000010_00000001_10100111 = some (.cmp 1 2) := by decide
theorem test_decode_jmp : decodeTableWord 16 0b00000100_01010100 = some (.jmp 4) := by decide
theorem test_decode_jeq : decodeTableWord 16 0b00000100_01010101 = some (.jeq 4) := by decide
theorem test_decode_jne : decodeTableWord 16 0b00000100_01010110 = some (.jne 4) := by decide

/-- A table row that gives only the opcode byte has operand bytes of zeros. -/
theorem test_decode_short_row : decodeTableWord 8 0x82 = some (.ldi 0 0) := by decide

/-- E1, E3, E4: 0x00, 0xFF and LS-8's SUB are no opcodes. -/
theorem test_decode_unrecognized :
    decodeTableWord 8 0x00 = none ∧ decodeTableWord 8 0xFF = none ∧ decodeTableWord 24 0x0100A1 = none := by decide

/-- A sequence that ends before its operands is refused by name. -/
theorem test_decode_truncated :
    decodeOperands .ldi [0x00] = .error (.missingOperand .ldi) ∧ decode opcDefault [] = .error .noOpcode := ⟨rfl, rfl⟩

/-- P1's image: `LDI R0,8; PRN R0; HLT` is 82 00 08 47 00 01. -/
theorem test_encode_p1 :
    encode opcDefault (.ldi 0 8) ++ encode opcDefault (.prn 0) ++ encode opcDefault .hlt =
      [0x82, 0x00, 0x08, 0x47, 0x00, 0x01] := by decide

/-! ### The first instruction after reset -/

/-- With nothing placed, the first fetch reads an unset cell: Halted(2, 256) at pc 0 (E2). -/
theorem test_reset_empty : after cause State.reset = some (2, 256) ∧ after (·.pc) State.reset = some 0 := by decide

theorem test_reset_fetch_word :
    after (·.pc) (State.reset.withFetchWord 24 0x080082) = some 3 ∧
    after (·.reg 0) (State.reset.withFetchWord 24 0x080082) = some 8 := by decide

/-- E5: a fetch at 256. -/
theorem test_fetch_256 : after cause (box #v[0, 0, 0, 0, 0, 0, 0, 244] 256 0 [] []) = some (17, 256) := by decide

/-- E6: a step of a Halted block changes nothing. -/
theorem test_step_halted :
    nextOf (step { State.reset with runState := .halted .hlt, pc := 257 }) =
      some { State.reset with runState := .halted .hlt, pc := 257 } := by decide

/-! ### One step each -/

/-- L1 to L3: `82 07 0A` sets SP to 10 with no clamp. -/
theorem test_ldi_sp :
    after (fun t => (t.sp, t.pc)) (box #v[1, 2, 3, 4, 5, 6, 7, 244] 0 0 [0x82, 0x07, 0x0A] []) = some (10, 3) := by decide

/-- L5: LDI at 254 faults on its operand at 256. -/
theorem test_ldi_past_end :
    after cause (box #v[0, 0, 0, 0, 0, 0, 0, 244] 254 0 [0x82, 0x00] []) = some (18, 256) := by decide

/-- L7: the value byte is unset. -/
theorem test_unset_operand :
    after cause (box #v[0, 0, 0, 0, 0, 0, 0, 244] 0 0 [0x82, 0x00] []) = some (19, 2) := by decide

/-- L10: `PRN R7` after reset emits 244. -/
theorem test_prn_sp : after (·.out) (box #v[0, 0, 0, 0, 0, 0, 0, 244] 0 0 [0x47, 0x07] []) = some [244] := by decide

/-- L8: `out_valid` and `out_data` for PRN, and no output for HLT. -/
theorem test_out_port :
    outPort opcDefault (box #v[0, 0, 0, 42, 0, 0, 0, 244] 10 0 [0x47, 0x03] []) = some 42 ∧
    outPort opcDefault (box #v[0, 0, 0, 42, 0, 0, 0, 244] 10 0 [0x01] []) = none := by decide

/-- A1: 200 + 100 saturates; the second operand and FL stay. -/
theorem test_add_saturates :
    after (fun t => (t.reg 0, t.reg 1, t.fl)) (box #v[200, 100, 0, 0, 0, 0, 0, 244] 0 1 [0xA0, 0x00, 0x01] []) =
      some (255, 100, 1) := by decide

/-- A4: 100 + 154 does not saturate. -/
theorem test_add_exact :
    after (·.reg 0) (box #v[100, 154, 0, 0, 0, 0, 0, 244] 0 0 [0xA0, 0x00, 0x01] []) = some 254 := by decide

/-- A7 and A10: 16 * 16 saturates, 15 * 15 does not. -/
theorem test_mul_saturates :
    after (·.reg 0) (box #v[16, 16, 0, 0, 0, 0, 0, 244] 0 0 [0xA2, 0x00, 0x01] []) = some 255 ∧
    after (·.reg 0) (box #v[15, 0, 0, 0, 0, 0, 0, 244] 0 0 [0xA2, 0x00, 0x00] []) = some 225 := by decide

/-- A14: CMP of equals keeps bits 7 to 1 of FL. -/
theorem test_cmp_equal :
    after (·.fl) (box #v[4, 4, 0, 0, 0, 0, 0, 244] 0 0b10101010 [0xA7, 0x00, 0x01] []) = some 0b10101011 := by decide

/-- A12: CMP of 1 and 2 clears Equal. -/
theorem test_cmp_differ :
    after (·.equalFlag) (box #v[1, 2, 0, 0, 0, 0, 0, 244] 0 0xFF [0xA7, 0x00, 0x01] []) = some false := by decide

/-- A16: with both register operands bad the first is reported. -/
theorem test_register_index_order :
    after cause (box #v[0, 0, 0, 0, 0, 0, 0, 244] 0 0 [0xA0, 0x09, 0x08] []) = some (20, 9) := by decide

/-- S3: the push at SP = 1 writes `M[0]`. -/
theorem test_push_to_zero :
    after (fun t => (t.sp, t.cell 0)) (box #v[9, 0, 0, 0, 0, 0, 0, 1] 8 0 [0x45, 0x00] []) = some (0, some 9) := by decide

/-- S5: `PUSH R7` stores the decremented SP. -/
theorem test_push_sp :
    after (·.cell 243) (box #v[0, 0, 0, 0, 0, 0, 0, 244] 0 0 [0x45, 0x07] []) = some (some 243) := by decide

/-- S10: POP at SP = 255 clamps SP to 244. -/
theorem test_pop_clamps :
    after (fun t => (t.reg 1, t.sp)) (box #v[0, 0, 0, 0, 0, 0, 0, 255] 0 0 [0x46, 0x01] [(255, 5)]) =
      some (5, 244) := by decide

/-- S6: `POP R7` increments the loaded value. -/
theorem test_pop_sp :
    after (·.sp) (box #v[0, 0, 0, 0, 0, 0, 0, 243] 0 0 [0x46, 0x07] [(243, 100)]) = some 101 := by decide

/-- C1: CALL at 8 pushes 10 and jumps. -/
theorem test_call :
    after (fun t => (t.sp, t.cell 242, t.pc)) (box #v[0, 20, 0, 0, 0, 0, 0, 243] 8 0 [0x50, 0x01] []) =
      some (242, some 10, 20) := by decide

/-- C4: CALL at 254 has return address 256. -/
theorem test_call_return_address :
    after cause (box #v[0, 20, 0, 0, 0, 0, 0, 243] 254 0 [0x50, 0x01] []) = some (23, 256) := by decide

/-- C8: RET at SP = 244 does not clamp. -/
theorem test_ret_no_clamp :
    after (fun t => (t.pc, t.sp)) (box #v[0, 0, 0, 0, 0, 0, 0, 244] 0 0 [0x11] [(244, 7)]) = some (7, 245) := by decide

/-- C7: RET at SP = 255 overflows. -/
theorem test_ret_overflow :
    after cause (box #v[0, 0, 0, 0, 0, 0, 0, 255] 0 0 [0x11] [(255, 3)]) = some (22, 255) := by decide

/-- C10. -/
theorem test_jmp : after (·.pc) (box #v[0, 0, 0, 12, 0, 0, 0, 244] 0 0 [0x54, 0x03] []) = some 12 := by decide

/-- C12. -/
theorem test_jeq :
    after (·.pc) (box #v[0, 0, 0, 12, 0, 0, 0, 244] 20 1 [0x55, 0x03] []) = some 12 ∧
    after (·.pc) (box #v[0, 0, 0, 12, 0, 0, 0, 244] 20 0 [0x55, 0x03] []) = some 22 := by decide

/-- C14: the register operand is checked although the jump is not taken. -/
theorem test_jeq_bad_register : after cause (box #v[0, 0, 0, 0, 0, 0, 0, 244] 0 0 [0x55, 0x08] []) = some (20, 8) := by
  decide

/-- C13. -/
theorem test_jne :
    after (·.pc) (box #v[0, 0, 0, 12, 0, 0, 0, 244] 20 0 [0x56, 0x03] []) = some 12 ∧
    after (·.pc) (box #v[0, 0, 0, 12, 0, 0, 0, 244] 20 1 [0x56, 0x03] []) = some 22 := by decide

/-- C15: HLT at 255. -/
theorem test_hlt_at_end :
    after (fun t => (cause t, t.pc)) (box #v[0, 0, 0, 0, 0, 0, 0, 244] 255 0 [0x01] []) = some ((1, 0), 257) := by decide

/-! ### The loader and the ports -/

/-- W9: an image line with a comment. -/
theorem test_image_line : parseLine "10000010  # LDI".toList = some (some 0x82) := by decide

/-- R75: a comment-only line is skipped, a line that is no base-2 numeral is malformed. -/
theorem test_image_lines :
    parseImage ["# start".toList, "".toList, "00000001".toList] = some [1] ∧
    parseImage ["2".toList] = none := by decide

/-- W8, at the last cell: the 257th byte is not written. -/
theorem test_load_overflow :
    (loadFrom 255 [7, 9] State.reset).1 = .overflow ∧ (loadFrom 255 [7, 9] State.reset).2.cell 255 = some 7 := by decide

/-- `insp_data` of a set and of an unset cell: bit 8 marks unset. -/
theorem test_insp_data :
    (box #v[0, 0, 0, 0, 0, 0, 0, 244] 0 0 [0x01] []).inspData 0 = 1 ∧
    ((State.reset).inspData 9).getLsbD 8 = true := by
  refine ⟨by decide, ?_⟩
  simp [State.inspData, State.reset, State.resetWith, State.cell, Memory.lookup]

/-! ### A witness for the hypotheses of every statement -/

/-- R0 to R6 = 1 to 7, SP = 244. -/
def wit : State := box #v[1, 2, 3, 4, 5, 6, 7, 244] 0 1 [] []

theorem witness_register_bytes :
    (0 : Byte).toNat = (0 : Fin 8).val ∧ (7 : Byte).toNat = (7 : Fin 8).val ∧ 8 ≤ (8 : Byte).toNat ∧
    8 ≤ (255 : Byte).toNat := by decide

theorem witness_LdiLoadsItsValue : (3 : Byte).toNat = (3 : Fin 8).val := by decide
theorem witness_PrnEmitsTheRegister : (7 : Byte).toNat = (7 : Fin 8).val := by decide
theorem witness_AddSaturates : (0 : Byte).toNat = (0 : Fin 8).val ∧ (7 : Byte).toNat = (7 : Fin 8).val := by decide
theorem witness_MulSaturates : (6 : Byte).toNat = (6 : Fin 8).val ∧ (6 : Byte).toNat = (6 : Fin 8).val := by decide
theorem witness_CmpSetsEqualOnly : (1 : Byte).toNat = (1 : Fin 8).val ∧ (2 : Byte).toNat = (2 : Fin 8).val := by decide
theorem witness_PushStoresBelowSp : (2 : Byte).toNat = (2 : Fin 8).val ∧ wit.sp ≠ 0 := by decide
theorem witness_PopLoadsAndClamps :
    (7 : Byte).toNat = (7 : Fin 8).val ∧
    (box #v[1, 2, 3, 4, 5, 6, 7, 255] 0 0 [] [(255, 9)]).cell
      (box #v[1, 2, 3, 4, 5, 6, 7, 255] 0 0 [] [(255, 9)]).sp.toNat = some 9 := by decide
theorem witness_CallPushesReturnAddressAndJumps :
    (7 : Byte).toNat = (7 : Fin 8).val ∧ (box #v[1, 2, 3, 4, 5, 6, 7, 1] 253 0 [] []).sp ≠ 0 ∧
    (box #v[1, 2, 3, 4, 5, 6, 7, 1] 253 0 [] []).pc.toNat ≤ 253 := by decide
theorem witness_RetReturnsToPoppedAddress :
    (box #v[1, 2, 3, 4, 5, 6, 7, 254] 0 0 [] [(254, 9)]).cell
      (box #v[1, 2, 3, 4, 5, 6, 7, 254] 0 0 [] [(254, 9)]).sp.toNat = some 9 ∧
    (box #v[1, 2, 3, 4, 5, 6, 7, 254] 0 0 [] [(254, 9)]).sp ≠ 255 := by decide
theorem witness_JmpJumpsThroughRegister : (4 : Byte).toNat = (4 : Fin 8).val := by decide
theorem witness_ConditionalJumpsFollowEqual :
    (5 : Byte).toNat = (5 : Fin 8).val ∧ wit.fl.getLsbD 0 = true ∧
    (box #v[1, 2, 3, 4, 5, 6, 7, 244] 0 0xFE [] []).fl.getLsbD 0 = false := by decide
theorem witness_RegisterOperandsAreChecked :
    8 ≤ (8 : Byte).toNat ∧ (7 : Byte).toNat < 8 ∧ 8 ≤ (255 : Byte).toNat := by decide
theorem witness_StackPointerDecrementIsChecked :
    (7 : Byte).toNat < 8 ∧ (box #v[1, 2, 3, 4, 5, 6, 7, 0] 0 0 [] []).sp = 0 ∧ wit.sp ≠ 0 ∧ wit.pc.toNat ≤ 253 := by decide
theorem witness_StackReadsAndReturnAddressAreChecked :
    ((0 : Byte).toNat < 8 ∧ wit.cell wit.sp.toNat = none) ∧
    ((box #v[1, 2, 3, 4, 5, 6, 7, 255] 0 0 [] [(255, 9)]).sp = 255 ∧
      (box #v[1, 2, 3, 4, 5, 6, 7, 255] 0 0 [] [(255, 9)]).cell 255 = some 9) ∧
    ((box #v[1, 2, 3, 4, 5, 6, 7, 1] 254 0 [] []).sp ≠ 0 ∧
      (box #v[1, 2, 3, 4, 5, 6, 7, 1] 254 0 [] []).pc = 254) := by decide
/-- `PRN` of byte 8 in `wit`, by `exec` and by a step of the same bytes. -/
theorem witness_FaultsArePrecise :
    wit.runState = .running ∧
    exec (.prn 8) wit = .next { wit with runState := .faulted (.registerIndex 8) } ∧
    stepWith opcDefault (box #v[1, 2, 3, 4, 5, 6, 7, 244] 0 1 [0x47, 8] []) =
      .next { box #v[1, 2, 3, 4, 5, 6, 7, 244] 0 1 [0x47, 8] [] with
        started := true, runState := .faulted (.registerIndex 8) } := ⟨rfl, rfl, rfl⟩
/-- A PUSH whose last byte stands at 255. -/
theorem witness_StepRunsDecodedInstruction :
    (box #v[1, 2, 3, 4, 5, 6, 7, 244] 254 0 [0x45, 0x03] []).runState = .running ∧
    BytesAt (box #v[1, 2, 3, 4, 5, 6, 7, 244] 254 0 [0x45, 0x03] []) 254 [0x45, 0x03] ∧
    decode opcDefault [0x45, 0x03] = .ok (.push 3, []) := by
  refine ⟨rfl, ⟨by decide, ?_⟩, rfl⟩
  intro k hk
  have : k < 2 := hk
  interval_cases k <;> rfl
theorem witness_UnrecognizedOpcodeHalts :
    (wit.runState = .running ∧ wit.pc.toNat < 256 ∧ wit.cell wit.pc.toNat = none ∧
      ∀ op, (none : Option Byte) ≠ some (opcDefault op)) ∧
    ((box #v[1, 2, 3, 4, 5, 6, 7, 244] 255 0 [0xFF] []).cell 255 = some 0xFF ∧
      ∀ op, (some 0xFF : Option Byte) ≠ some (opcDefault op)) :=
  ⟨⟨rfl, by decide, rfl, by nofun⟩, by decide, fun op => by cases op <;> decide⟩
/-- Clause by clause: fetch at 256; an unset opcode; CALL at 255 and 254, LDI at 254 and 0, bad register bytes, and each
own check. -/
theorem witness_FaultPriorityOrder :
    OpcMap.Distinct opcDefault ∧
    256 ≤ (box #v[0, 0, 0, 0, 0, 0, 0, 244] 256 0 [] []).pc.toNat ∧
    (box #v[0, 0, 0, 0, 0, 0, 0, 244] 0 0 [] []).cell 0 = none ∧
    (2 ≤ Opcode.call.length ∧ (box #v[0, 0, 0, 0, 0, 0, 0, 244] 255 0 [0x50] []).cell 255 = some (opcDefault .call)) ∧
    ((box #v[0, 0, 0, 0, 0, 0, 0, 244] 254 0 [0x50] []).cell 254 = some (opcDefault .call) ∧
      (box #v[0, 0, 0, 0, 0, 0, 0, 244] 254 0 [0x50] []).cell 255 = none) ∧
    (Opcode.ldi.length = 3 ∧ (box #v[0, 0, 0, 0, 0, 0, 0, 244] 254 0 [0x82, 9] []).cell 254 = some (opcDefault .ldi) ∧
      (box #v[0, 0, 0, 0, 0, 0, 0, 244] 254 0 [0x82, 9] []).cell 255 = some 9) ∧
    ((box #v[0, 0, 0, 0, 0, 0, 0, 244] 253 0 [0x82, 9] []).cell 254 = some 9 ∧
      (box #v[0, 0, 0, 0, 0, 0, 0, 244] 253 0 [0x82, 9] []).cell 255 = none) ∧
    ((box #v[0, 0, 0, 0, 0, 0, 0, 244] 253 0 [0xA0, 7, 8] []).cell 254 = some 7 ∧
      (box #v[0, 0, 0, 0, 0, 0, 0, 244] 253 0 [0xA0, 7, 8] []).cell 255 = some 8) ∧
    ((box #v[0, 0, 0, 0, 0, 0, 0, 0] 254 0 [0x45, 7] []).cell 255 = some 7 ∧
      (box #v[0, 0, 0, 0, 0, 0, 0, 0] 254 0 [0x45, 7] []).sp = 0) ∧
    ((box #v[0, 0, 0, 0, 0, 0, 0, 1] 254 0 [0x50, 7] []).cell 254 = some (opcDefault .call) ∧
      (box #v[0, 0, 0, 0, 0, 0, 0, 1] 254 0 [0x50, 7] []).sp ≠ 0) ∧
    ((box #v[0, 0, 0, 0, 0, 0, 0, 255] 255 0 [0x11] []).cell 255 = some (opcDefault .ret) ∧
      (box #v[0, 0, 0, 0, 0, 0, 0, 255] 255 0 [0x11] []).sp = 255) := by decide

/-- The clauses on a bad first register byte, and on POP and RET of an unset cell, each at the end of memory. -/
theorem witness_FaultPriorityOrder_end :
    ((box #v[0, 0, 0, 0, 0, 0, 0, 244] 254 0 [0x45, 8] []).cell 254 = some (opcDefault .push) ∧
      (box #v[0, 0, 0, 0, 0, 0, 0, 244] 254 0 [0x45, 8] []).cell 255 = some 8) ∧
    ((box #v[0, 0, 0, 0, 0, 0, 0, 0] 254 0 [0x46, 7] []).cell 255 = some 7 ∧
      (box #v[0, 0, 0, 0, 0, 0, 0, 0] 254 0 [0x46, 7] []).cell 0 = none) ∧
    ((box #v[0, 0, 0, 0, 0, 0, 0, 0] 255 0 [0x11] []).cell 255 = some (opcDefault .ret) ∧
      (box #v[0, 0, 0, 0, 0, 0, 0, 0] 255 0 [0x11] []).cell 0 = none) := by decide

/-- A block halted by HLT. -/
def stopped : State := { wit with runState := .halted .hlt, pc := 257, started := true }

theorem witness_StoppedBlockIsTerminal :
    stopped.runState ≠ .running ∧ stopped.started = true ∧ Input.rst ∉ [Input.step, .load 0 1, .idle] := by decide
theorem witness_StartedGatesTheLoader :
    wit.runState = .running ∧ wit.started = false ∧ stopped.started = true ∧ Input.load 0 1 ≠ .rst ∧
    applyInput defaultParams stopped (.load 0 1) = .next stopped := ⟨rfl, rfl, rfl, by decide, rfl⟩
theorem witness_StepKeepsInvariant : State.Inv opcDefault wit ∧ State.Inv opcDefault stopped :=
  ⟨⟨rfl, fun _ => by decide, by nofun, by nofun, by nofun, fun h => absurd rfl h⟩,
    ⟨rfl, by nofun, fun _ => rfl, by nofun, by nofun, fun _ => rfl⟩⟩
theorem witness_StatusPortShowsR191 : State.Inv opcDefault stopped := witness_StepKeepsInvariant.2
theorem witness_FlagsRegisterDiscipline :
    exec (.jmp 0) wit = .next (wit.setPc 1) ∧ (∀ x y, Instr.jmp 0 ≠ .cmp x y) ∧
    exec (.cmp 0 0) wit = .next (wit.advance 3) ∧
    (0b10101011 : Byte).getLsbD 0 = wit.fl.getLsbD 0 := ⟨rfl, by nofun, rfl, rfl⟩
theorem witness_OnlyPushAndCallWriteMemory :
    exec .hlt wit = .next ((wit.halt .hlt).setPc 257) ∧ Completes (.push 0) wit ((nextOf (exec (.push 0) wit)).getD wit) :=
  ⟨rfl, rfl, rfl, by nofun⟩
theorem witness_OnlyPrnExtendsOutput :
    Completes (.prn 6) wit ((wit.emit 7).advance 2) ∧ stepWith opcDefault stopped = .next stopped :=
  ⟨⟨rfl, rfl, by nofun⟩, rfl⟩
theorem witness_LoopBoundAgreesWithHalt :
    (box #v[1, 2, 3, 4, 5, 6, 7, 244] 255 0 [0x01] []).runState = .running ∧
    (box #v[1, 2, 3, 4, 5, 6, 7, 244] 255 0 [0x01] []).pc.toNat ≤ 256 ∧
    after (·.pc) (box #v[1, 2, 3, 4, 5, 6, 7, 244] 255 0 [0x01] []) = some 257 := by decide
/-- `LDI R0,2`, `RET` and `JEQ R0` complete. -/
theorem witness_PcSequencerSelectsNextPc :
    Completes (.ldi 0 2) wit ((wit.writeReg 0 2).advance 3) ∧ Completes (.jeq 0) wit (wit.setPc 1) ∧
    Completes .ret { wit with mem := [(244, 9)] } (({ wit with mem := [(244, 9)] }.writeSp 245).setPc 9) :=
  ⟨⟨rfl, rfl, by nofun⟩, ⟨rfl, rfl, by nofun⟩, rfl, rfl, by nofun⟩
theorem witness_OnlyPopClampsSp :
    Completes (.ldi 7 250) wit ((wit.writeReg 7 250).advance 3) ∧
    Completes (.pop 0) { wit with mem := [(244, 9)] } (({ wit with mem := [(244, 9)] }.writeReg 0 9).advance 2) :=
  ⟨⟨rfl, rfl, by nofun⟩, rfl, rfl, by nofun⟩
theorem witness_HaltCausesAreExact :
    OpcMap.Distinct opcDefault ∧ (box #v[1, 2, 3, 4, 5, 6, 7, 244] 5 0 [0x01] []).runState = .running ∧
    after (·.runState) (box #v[1, 2, 3, 4, 5, 6, 7, 244] 5 0 [0x01] []) = some (.halted .hlt) := by decide
/-- Swapping R0 and R1. -/
theorem witness_GeneralRegistersAreInterchangeable :
    (Equiv.swap 0 1 : Equiv.Perm (Fin 8)) 7 = 7 ∧
    RenamedState (Equiv.swap 0 1) wit { wit with regs := #v[2, 1, 3, 4, 5, 6, 7, 244] } ∧
    exec (.add 0 2) wit = .next ((wit.writeReg 0 4).advance 3) :=
  ⟨by decide, ⟨by decide, rfl, rfl, rfl, rfl, rfl, rfl⟩, rfl⟩
theorem witness_MemoryFormIsCanonical :
    Memory.wf [(0, 1), (255, 2)] = true ∧ Memory.wf (Memory.store 255 2 [(0, 1)]) = true ∧
    ∀ a, a < 256 → Memory.lookup [(0, 1), (255, 2)] a = (Memory.store 255 2 [(0, 1)]).lookup a :=
  ⟨by decide, by decide, fun _ _ => rfl⟩
theorem witness_DecodeOfEncode : OpcMap.Distinct opcDefault := by decide
theorem witness_DecoderMatchesWholeByte : OpcMap.Distinct opcDefault := by decide
theorem witness_DecodeAcceptsOnlyEncodings : decode opcDefault [0x45, 0x03, 0x99] = .ok (.push 3, [0x99]) := rfl
/-- `11111111`, `100000000`, and no digits. -/
theorem witness_ImageTextLines :
    [true, true, true, true, true, true, true, true].foldl (fun n d => 2 * n + d.toNat) 0 = 255 ∧
    256 ≤ [true, false, false, false, false, false, false, false, false].foldl (fun n d => 2 * n + d.toNat) 0 := by decide
theorem witness_AluUnsupportedSelectFaults :
    (0 : Byte).toNat < 8 ∧ (7 : Byte).toNat < 8 ∧ wit.runState = .running ∧
    exec (.jmp 0) wit = .next (wit.setPc 1) := ⟨by decide, by decide, rfl, rfl⟩
theorem witness_CompareDecidesBranches :
    (0 : Byte).toNat = (0 : Fin 8).val ∧ (1 : Byte).toNat = (1 : Fin 8).val ∧ (7 : Byte).toNat = (7 : Fin 8).val ∧
    exec (.cmp 0 1) wit = .next ((wit.setFl 0).advance 3) ∧ wit.reg 0 ≠ wit.reg 1 :=
  ⟨by decide, by decide, by decide, rfl, by decide⟩
theorem witness_PushPopRoundTrip :
    (7 : Byte).toNat = (7 : Fin 8).val ∧ (0 : Byte).toNat = (0 : Fin 8).val ∧ (0 : Fin 8) ≠ 7 ∧ wit.sp ≠ 0 ∧
    exec (.push 7) wit = .next (((wit.writeSp 243).writeCell 243 243).advance 2) :=
  ⟨by decide, by decide, by decide, by decide, rfl⟩
theorem witness_CallRetRoundTrip :
    Completes (.call 0) wit (((wit.writeSp 243).writeCell 243 2).setPc 1) ∧
    (((wit.writeSp 243).writeCell 243 2).setPc 99).sp = (((wit.writeSp 243).writeCell 243 2).setPc 1).sp :=
  ⟨⟨rfl, rfl, by nofun⟩, rfl⟩
theorem witness_SpOperandEffectsAreOrdered :
    wit.sp ≠ 0 ∧ wit.pc.toNat ≤ 253 ∧
    (box #v[1, 2, 3, 4, 5, 6, 7, 243] 0 0 [] [(243, 255)]).cell
      (box #v[1, 2, 3, 4, 5, 6, 7, 243] 0 0 [] [(243, 255)]).sp.toNat = some 255 := by decide
theorem witness_StackWritesAreFetched :
    (0 : Byte).toNat = (0 : Fin 8).val ∧ Completes (.push 0) wit (((wit.writeSp 243).writeCell 243 1).advance 2) ∧
    Completes (.call 0) wit (((wit.writeSp 243).writeCell 243 2).setPc 1) :=
  ⟨by decide, ⟨rfl, rfl, by nofun⟩, rfl, rfl, by nofun⟩

end Sys2Proof.Tests
end

/-! Proofs of the statements of 00_scope.md: register operands are checked (R20), faults are precise (R22). -/

namespace Sys2Proof.Machine

/-! ### A bad register operand byte (R20, R92, R106) -/

/-- A handler whose first check is the register operand `b` takes that operand's fault, whatever follows the check. -/
theorem finish_regIdx_bind_takesFault {b : Byte} (hb : 8 ≤ b.toNat) (s : State)
    (rest : Fin 8 → Except FaultCause State) :
    TakesFault (.registerIndex b) s (finish s (regIdx b >>= rest)) := by
  rw [regIdx_error_iff.mpr ⟨hb, rfl⟩]
  rfl

/-- Past a good first register operand, the handler of format F2R takes the fault of a bad second one. -/
theorem finish_aluHandler_takesFault_second {x y : Byte} (hx : x.toNat < 8) (hy : 8 ≤ y.toNat)
    (op : BitVec 2) (s : State) :
    TakesFault (.registerIndex y) s (finish s (aluHandler op x y s)) := by
  have hfirst : regIdx x = .ok ⟨x.toNat, hx⟩ := regIdx_ok_iff.mpr rfl
  rw [aluHandler, hfirst]
  exact finish_regIdx_bind_takesFault hy s _

/-! ### Where a Faulted state comes from (R22, R196) -/

/-- A completed instruction keeps the run state, except HLT, which halts. -/
theorem InstrEffect.runState_eq {i : Instr} {s t : State} (h : InstrEffect i s t) :
    t.runState = s.runState ∨ i = .hlt ∧ t.runState = .halted .hlt := by
  cases i
  case hlt =>
    subst h
    exact .inr ⟨rfl, rfl⟩
  case ldi | prn | jmp | jeq | jne =>
    obtain ⟨_, _, rfl⟩ := h
    exact .inl rfl
  case add | mul | cmp =>
    obtain ⟨_, _, _, _, rfl⟩ := h
    exact .inl rfl
  case push | ret =>
    obtain ⟨_, _, _, rfl⟩ := h
    exact .inl rfl
  case pop | call =>
    obtain ⟨_, _, _, _, rfl⟩ := h
    exact .inl rfl

/-- A completed instruction of a Running block takes no fault. -/
theorem InstrEffect.not_faulted {i : Instr} {s t : State} (h : InstrEffect i s t) (hs : s.runState = .running)
    (f : FaultCause) : t.runState ≠ .faulted f := by
  obtain hkept | ⟨-, hhalted⟩ := h.runState_eq
  · simp [hkept, hs]
  · simp [hhalted]

/-- The cause a Faulted state shows is the cause that was raised. -/
theorem State.raise_eq_of_faulted {s : State} {f g : FaultCause} (h : (s.raise g).runState = .faulted f) :
    s.raise g = s.raise f := by
  rw [State.raise_runState, RunState.faulted.injEq] at h
  rw [h]

/-- A Faulted answer of `exec` from a Running state is the fault taken from that very state. -/
theorem exec_faulted_eq_raise {i : Instr} {s t : State} {f : FaultCause} (hs : s.runState = .running)
    (h : exec i s = .next t) (ht : t.runState = .faulted f) : t = s.raise f := by
  obtain ⟨g, rfl, -, -⟩ | heffect := exec_cases h
  · exact State.raise_eq_of_faulted ht
  · exact absurd ht (heffect.not_faulted hs f)

/-- A Faulted answer of a step of a Running block is the fault taken from its state with `started` set. -/
theorem stepWith_faulted_eq_raise {opc : OpcMap} {s t : State} {f : FaultCause} (hs : s.runState = .running)
    (h : stepWith opc s = .next t) (ht : t.runState = .faulted f) : t = s.setStarted.raise f := by
  obtain ⟨-, rfl⟩ | ⟨-, -, rfl⟩ | ⟨-, op, -, ⟨g, -, rfl⟩ | ⟨i, -, hexec⟩⟩ := stepWith_running_cases hs h
  · exact State.raise_eq_of_faulted ht
  · cases ht
  · exact State.raise_eq_of_faulted ht
  · exact exec_faulted_eq_raise hs hexec ht

/-! ### The obligations -/

/-- Settles O13: every handler with a register operand begins with that operand's check, and the handler of format F2R
checks its second one next. -/
theorem registerOperandsAreChecked : Obligations.RegisterOperandsAreChecked := by
  unfold Obligations.RegisterOperandsAreChecked
  refine ⟨fun b r h => regIdx_ok_iff.mpr h, fun s b v hb => ?_, fun s x y hx hy => ?_⟩
  · have hfirst := finish_regIdx_bind_takesFault hb s
    exact ⟨hfirst _, hfirst _, hfirst _, hfirst _, hfirst _, hfirst _, hfirst _, hfirst _, hfirst _, hfirst _, hfirst _⟩
  · have hsecond := fun op => finish_aluHandler_takesFault_second hx hy op s
    exact ⟨hsecond aluAdd, hsecond aluMul, hsecond aluCmp⟩

/-- Settles O16: a Faulted state comes only from `raise` on the state the instruction, or the step with `started` set,
began in. -/
theorem faultsArePrecise : Obligations.FaultsArePrecise := by
  unfold Obligations.FaultsArePrecise
  exact ⟨fun _ _ _ _ hs h ht => exec_faulted_eq_raise hs h ht,
    fun _ _ _ _ hs h ht => stepWith_faulted_eq_raise hs h ht⟩

end Sys2Proof.Machine

/-! Proofs of the statements of 10_state.md: the registers (R31), FL (R42), `run_state` (R44, R45), the output (R46),
the ports (R49, R51) and `started` (R52). -/

namespace Sys2Proof.Machine

/-! ### Maps of the state that commute with the machine's operations -/

/-- `f` renames the registers by `p`, which keeps SP's place, leaves pc and memory, and commutes with every update of
registers, memory, pc, output and run state. Nothing is asked of FL: `RegisterSymmetry.exec_map` asks it per
instruction. -/
structure RegisterSymmetry (p : Equiv.Perm (Fin 8)) (f : State → State) : Prop where
  keepsSp : p Config.spIndex = Config.spIndex
  reg (s : State) (r : Fin 8) : (f s).reg (p r) = s.reg r
  pc (s : State) : (f s).pc = s.pc
  cell (s : State) (a : Nat) : (f s).cell a = s.cell a
  writeReg (s : State) (r : Fin 8) (v : Byte) : (f s).writeReg (p r) v = f (s.writeReg r v)
  writeCell (s : State) (a v : Byte) : (f s).writeCell a v = f (s.writeCell a v)
  setPc (s : State) (a : PcWord) : (f s).setPc a = f (s.setPc a)
  emit (s : State) (v : Byte) : (f s).emit v = f (s.emit v)
  setRunState (s : State) (q : RunState) : (f s).setRunState q = f (s.setRunState q)

theorem renameByte_toNat {p : Equiv.Perm (Fin 8)} {b : Byte} {r : Fin 8} (h : b.toNat = r.val) :
    (renameByte p b).toNat = (p r).val := by
  have hb : b.toNat < 8 := h ▸ r.isLt
  have hr : (⟨b.toNat, hb⟩ : Fin 8) = r := Fin.ext h
  rw [renameByte, dif_pos hb, hr, BitVec.toNat_ofNat]
  omega

theorem renameByte_of_no_register {p : Equiv.Perm (Fin 8)} {b : Byte} (h : 8 ≤ b.toNat) : renameByte p b = b :=
  dif_neg (by omega)

/-- A renamed operand byte selects the renamed register, and faults as the byte itself does. -/
theorem regIdx_renameByte (p : Equiv.Perm (Fin 8)) (b : Byte) : regIdx (renameByte p b) = p <$> regIdx b := by
  cases h : regIdx b with
  | ok r => exact regIdx_ok_iff.mpr (renameByte_toNat (regIdx_ok_iff.mp h))
  | error f => rw [renameByte_of_no_register (regIdx_error_iff.mp h).1, h]; rfl

namespace RegisterSymmetry

variable {p : Equiv.Perm (Fin 8)} {f : State → State} (hf : RegisterSymmetry p f)
include hf

theorem sp (s : State) : (f s).sp = s.sp := by
  have h := hf.reg s Config.spIndex
  rwa [hf.keepsSp] at h

theorem writeSp (s : State) (v : Byte) : (f s).writeSp v = f (s.writeSp v) := by
  have h := hf.writeReg s Config.spIndex v
  rwa [hf.keepsSp] at h

theorem advance (s : State) (n : PcWord) : (f s).advance n = f (s.advance n) := by
  rw [State.advance, hf.pc, hf.setPc, State.advance]

theorem halt (s : State) (c : HaltCause) : (f s).halt c = f (s.halt c) := hf.setRunState s _

theorem raise (s : State) (c : FaultCause) : (f s).raise c = f (s.raise c) := hf.setRunState s _

theorem memRead_map (s : State) (a : PcWord) : memRead (f s) a = memRead s a := by
  simp only [memRead, hf.cell]

theorem returnAddress_map (s : State) : returnAddress (f s) = returnAddress s := by
  simp only [returnAddress, hf.pc]

theorem spDecrement_map (s : State) : spDecrement (f s) = f <$> spDecrement s := by
  simp only [spDecrement, hf.sp, hf.writeSp]
  split <;> rfl

theorem spIncrement_map (s : State) : spIncrement (f s) = f <$> spIncrement s := by
  simp only [spIncrement, hf.sp, hf.writeSp]
  split <;> rfl

theorem spIncrementClamped_map (s : State) : spIncrementClamped (f s) = f (spIncrementClamped s) := by
  simp only [spIncrementClamped, hf.sp, hf.writeSp]

theorem jumpIf_map (taken : Bool) (b : Byte) (s : State) :
    jumpIf taken (renameByte p b) (f s) = f <$> jumpIf taken b s := by
  simp [jumpIf, regIdx_renameByte, hf.reg, hf.pc, hf.setPc]

/-- An ALU instruction commutes with `f` where its write back does. -/
theorem aluHandler_map {op : BitVec 2} (x y : Byte) {s : State}
    (hback : ∀ (a : Fin 8) (v w : Byte) (o : AluOut), alu op v w = .ok o →
      aluWriteBack (f s) (p a) o = f (aluWriteBack s a o)) :
    aluHandler op (renameByte p x) (renameByte p y) (f s) = f <$> aluHandler op x y s := by
  simp only [aluHandler, regIdx_renameByte, map_bind, bind_map_left, hf.reg, Except.map_ok]
  refine bind_congr fun a => bind_congr fun b => ?_
  cases h : alu op (s.reg a) (s.reg b) with
  | error g => rfl
  | ok o => exact congrArg Except.ok (by rw [hback a _ _ o h, hf.advance])

/-- `f` maps the end of an instruction to the end of its image: a fault is raised in both. -/
theorem finish_map {s t : State} {e e' : Except FaultCause State} (h : finish s e = .next t)
    (he : e' = f <$> e) : finish (f s) e' = .next (f t) := by
  subst he
  obtain rfl | ⟨g, rfl, rfl⟩ := finish_next_iff.mp h
  · rfl
  · exact congrArg _ (hf.raise s g)

/-- The simulation: the renamed instruction maps the image of a state to the image of the answer. JEQ and JNE need
that `f` keeps the Equal flag, CMP that `f` commutes with writing it. -/
theorem exec_map {i : Instr} {s t : State} (h : exec i s = .next t)
    (hread : (∃ b, i = .jeq b ∨ i = .jne b) → (f s).equalFlag = s.equalFlag)
    (hwrite : (∃ x y, i = .cmp x y) → ∀ e, (f s).setEqual e = f (s.setEqual e)) :
    exec (renameInstr p i) (f s) = .next (f t) := by
  cases i
  case ldi | prn | jmp =>
    refine hf.finish_map h ?_
    simp [regIdx_renameByte, hf.reg, hf.writeReg, hf.emit, hf.setPc, hf.advance]
  case push | pop | call | ret =>
    refine hf.finish_map h ?_
    simp [regIdx_renameByte, hf.sp, hf.spDecrement_map, hf.spIncrement_map, hf.spIncrementClamped_map, hf.memRead_map,
      hf.returnAddress_map, hf.reg, hf.writeReg, hf.writeCell, hf.setPc, hf.advance]
  case hlt =>
    obtain rfl : (s.halt .hlt).setPc 257 = t := Host.Outcome.next.inj h
    rw [renameInstr, exec_hlt, hf.halt, hf.setPc]
  case add x y =>
    refine hf.finish_map h (hf.aluHandler_map x y fun a v w o ho => ?_)
    rw [alu_add, Except.ok.injEq] at ho
    simp [← ho, aluWriteBack, hf.writeReg]
  case mul x y =>
    refine hf.finish_map h (hf.aluHandler_map x y fun a v w o ho => ?_)
    rw [alu_mul, Except.ok.injEq] at ho
    simp [← ho, aluWriteBack, hf.writeReg]
  case cmp x y =>
    refine hf.finish_map h (hf.aluHandler_map x y fun a v w o ho => ?_)
    rw [alu_cmp, Except.ok.injEq] at ho
    simp [← ho, aluWriteBack, hwrite ⟨x, y, rfl⟩]
  case jeq b =>
    refine hf.finish_map h ?_
    rw [hread ⟨b, .inl rfl⟩, hf.jumpIf_map]
  case jne b =>
    refine hf.finish_map h ?_
    rw [hread ⟨b, .inr rfl⟩, hf.jumpIf_map]

end RegisterSymmetry

/-! ### Renaming the general registers (R31) -/

/-- The state with its registers renamed by `p`. -/
def State.renameRegs (p : Equiv.Perm (Fin 8)) (s : State) : State :=
  { s with regs := Vector.ofFn fun r => s.reg (p.symm r) }

@[simp] theorem State.renameRegs_reg (p : Equiv.Perm (Fin 8)) (s : State) (r : Fin 8) :
    (s.renameRegs p).reg r = s.reg (p.symm r) := by
  simp [State.reg, State.renameRegs]

theorem renamedState_iff {p : Equiv.Perm (Fin 8)} {s t : State} : RenamedState p s t ↔ t = s.renameRegs p := by
  constructor
  · intro h
    refine State.ext_fields (State.regs_ext fun r => ?_) h.pc h.fl h.mem h.runState h.out h.started
    rw [State.renameRegs_reg, ← h.reg, p.apply_symm_apply]
  · rintro rfl
    exact ⟨by simp, rfl, rfl, rfl, rfl, rfl, rfl⟩

theorem State.writeReg_renameRegs (p : Equiv.Perm (Fin 8)) (s : State) (r : Fin 8) (v : Byte) :
    (s.renameRegs p).writeReg (p r) v = (s.writeReg r v).renameRegs p := by
  refine State.ext_fields (State.regs_ext fun k => ?_) rfl rfl rfl rfl rfl rfl
  simp [Equiv.symm_apply_eq]

theorem registerSymmetry_renameRegs {p : Equiv.Perm (Fin 8)} (hp : p Config.spIndex = Config.spIndex) :
    RegisterSymmetry p (State.renameRegs p) where
  keepsSp := hp
  reg := by simp
  writeReg := State.writeReg_renameRegs p
  pc _ := rfl
  cell _ _ := rfl
  writeCell _ _ _ := rfl
  setPc _ _ := rfl
  emit _ _ := rfl
  setRunState _ _ := rfl

/-- Settles O32: renaming the registers is a `RegisterSymmetry` that leaves FL alone. -/
theorem generalRegistersAreInterchangeable : Obligations.GeneralRegistersAreInterchangeable := by
  unfold Obligations.GeneralRegistersAreInterchangeable
  intro p hp i s s' t hs h
  obtain rfl := renamedState_iff.mp hs
  exact ⟨t.renameRegs p, (registerSymmetry_renameRegs hp).exec_map h (fun _ => rfl) (fun _ _ => rfl),
    renamedState_iff.mpr rfl⟩

/-! ### What every instruction leaves alone -/

/-- The frame of an instruction: `started` stays, only PRN appends to the output, only CMP writes FL and only its
Equal bit, only PUSH and CALL write memory, one byte at the decremented SP. -/
structure ExecFrame (i : Instr) (s t : State) : Prop where
  started : t.started = s.started
  out : t.out = s.out ∨ ∃ b v, i = .prn b ∧ t.out = s.out ++ [v]
  fl : t.fl = s.fl ∨ ∃ x y e, i = .cmp x y ∧ t.fl = withEqual s.fl e
  mem : t.mem = s.mem ∨ ∃ b v, (i = .push b ∨ i = .call b) ∧ t.mem = s.mem.store (s.sp - 1).toNat v

theorem InstrEffect.frame {i : Instr} {s t : State} (h : InstrEffect i s t) : ExecFrame i s t := by
  cases i
  case hlt =>
    subst h
    exact ⟨rfl, .inl rfl, .inl rfl, .inl rfl⟩
  case ldi | jmp | jeq | jne =>
    obtain ⟨_, _, rfl⟩ := h
    exact ⟨rfl, .inl rfl, .inl rfl, .inl rfl⟩
  case add | mul | pop =>
    obtain ⟨_, _, _, _, rfl⟩ := h
    exact ⟨rfl, .inl rfl, .inl rfl, .inl rfl⟩
  case ret =>
    obtain ⟨_, _, _, rfl⟩ := h
    exact ⟨rfl, .inl rfl, .inl rfl, .inl rfl⟩
  case prn b =>
    obtain ⟨r, _, rfl⟩ := h
    exact ⟨rfl, .inr ⟨b, s.reg r, rfl, rfl⟩, .inl rfl, .inl rfl⟩
  case cmp x y =>
    obtain ⟨_, _, _, _, rfl⟩ := h
    exact ⟨rfl, .inl rfl, .inr ⟨x, y, _, rfl, rfl⟩, .inl rfl⟩
  case push b =>
    obtain ⟨_, _, _, rfl⟩ := h
    exact ⟨rfl, .inl rfl, .inl rfl, .inr ⟨b, _, .inl rfl, rfl⟩⟩
  case call b =>
    obtain ⟨_, _, _, _, rfl⟩ := h
    exact ⟨rfl, .inl rfl, .inl rfl, .inr ⟨b, _, .inr rfl, rfl⟩⟩

theorem exec_frame {i : Instr} {s t : State} (h : exec i s = .next t) : ExecFrame i s t := by
  obtain ⟨f, rfl, -, -⟩ | heffect := exec_cases h
  · exact ⟨rfl, .inl rfl, .inl rfl, .inl rfl⟩
  · exact heffect.frame

/-! ### FL (R42) -/

theorem renameByte_refl (b : Byte) : renameByte (Equiv.refl (Fin 8)) b = b := by
  simp [renameByte]

theorem renameInstr_refl (i : Instr) : renameInstr (Equiv.refl (Fin 8)) i = i := by
  cases i <;> simp only [renameInstr, renameByte_refl]

theorem registerSymmetry_setFl (v : Byte) : RegisterSymmetry (Equiv.refl (Fin 8)) (·.setFl v) where
  keepsSp := rfl
  reg _ _ := rfl
  pc _ := rfl
  cell _ _ := rfl
  writeReg _ _ _ := rfl
  writeCell _ _ _ := rfl
  setPc _ _ := rfl
  emit _ _ := rfl
  setRunState _ _ := rfl

/-- No instruction but CMP, JEQ and JNE sees FL, and JEQ and JNE see its Equal bit alone. -/
theorem exec_setFl {i : Instr} {s t : State} {v : Byte} (h : exec i s = .next t) (hcmp : ∀ x y, i ≠ .cmp x y)
    (hbit : (∃ b, i = .jeq b ∨ i = .jne b) → v.getLsbD 0 = s.fl.getLsbD 0) :
    exec i (s.setFl v) = .next (t.setFl v) := by
  have hmap := (registerSymmetry_setFl v).exec_map h hbit (fun ⟨x, y, hxy⟩ => absurd hxy (hcmp x y))
  rwa [renameInstr_refl] at hmap

/-- CMP does not read FL: with another FL it takes the same fault, or writes the same Equal bit. -/
theorem exec_cmp_setFl (x y : Byte) (s : State) (v : Byte) :
    ∃ t u, exec (.cmp x y) s = .next t ∧ exec (.cmp x y) (s.setFl v) = .next u ∧ u = t.setFl u.fl := by
  obtain ⟨a, ha⟩ | hx := regIdx_cases x
  · obtain ⟨b, hb⟩ | hy := regIdx_cases y
    · exact ⟨_, _, exec_cmp ha hb, exec_cmp ha hb, rfl⟩
    · have hfault := finish_aluHandler_takesFault_second (ha ▸ a.isLt) (regIdx_error_iff.mp hy).1 aluCmp
      exact ⟨_, _, hfault s, hfault (s.setFl v), rfl⟩
  · have hfault := fun u => finish_regIdx_bind_takesFault (regIdx_error_iff.mp hx).1 u
    exact ⟨_, _, hfault s _, hfault (s.setFl v) _, rfl⟩

/-- Settles O25: by the frame of `exec`, and by running each instruction with FL replaced. -/
theorem flagsRegisterDiscipline : Obligations.FlagsRegisterDiscipline := by
  unfold Obligations.FlagsRegisterDiscipline
  refine ⟨fun i s t h hcmp => ?_, fun s t x y h k hk hk' => ?_, fun i s v hbit => ?_⟩
  · obtain hsame | ⟨x, y, e, hi, -⟩ := (exec_frame h).fl
    · exact hsame
    · exact absurd hi (hcmp x y)
  · obtain hsame | ⟨_, _, e, -, hwritten⟩ := (exec_frame h).fl
    · rw [hsame]
    · rw [hwritten, withEqual_getLsbD _ _ _ (by omega), if_neg (by omega)]
  · by_cases hcmp : ∃ x y, i = .cmp x y
    · obtain ⟨x, y, rfl⟩ := hcmp
      exact exec_cmp_setFl x y s v
    · obtain ⟨t, ht⟩ := exec_answers_next i s
      exact ⟨t, _, ht, exec_setFl ht (fun x y hi => hcmp ⟨x, y, hi⟩) hbit, rfl⟩

/-! ### What a step does to `started` and the output (R46, R49, R52) -/

theorem stepWith_of_stopped {opc : OpcMap} {s : State} (hs : s.runState ≠ .running) : stepWith opc s = .next s := by
  unfold stepWith
  split
  · contradiction
  · rfl
  · rfl

theorem stepWith_of_running {opc : OpcMap} {s : State} (hs : s.runState = .running) :
    stepWith opc s = fetchDecodeExecute opc s.setStarted := by
  rw [stepWith, hs]

theorem fetchDecodeExecute_answers_next (opc : OpcMap) (s : State) : ∃ t, fetchDecodeExecute opc s = .next t := by
  unfold fetchDecodeExecute
  split
  · exact ⟨_, rfl⟩
  · split
    · exact ⟨_, rfl⟩
    · split
      · exact ⟨_, rfl⟩
      · exact exec_answers_next _ _

theorem stepWith_answers_next (opc : OpcMap) (s : State) : ∃ t, stepWith opc s = .next t := by
  by_cases hs : s.runState = .running
  · rw [stepWith_of_running hs]
    exact fetchDecodeExecute_answers_next opc s.setStarted
  · exact ⟨s, stepWith_of_stopped hs⟩

theorem stepWith_running_started {opc : OpcMap} {s t : State} (hs : s.runState = .running)
    (h : stepWith opc s = .next t) : t.started = true := by
  obtain ⟨-, rfl⟩ | ⟨-, -, rfl⟩ | ⟨-, op, -, ⟨g, -, rfl⟩ | ⟨i, -, hexec⟩⟩ := stepWith_running_cases hs h
  · rfl
  · rfl
  · rfl
  · exact (exec_frame hexec).started

/-- A step appends nothing to the output, or one value. -/
theorem stepWith_out {opc : OpcMap} {s t : State} (h : stepWith opc s = .next t) :
    t.out = s.out ∨ ∃ v, t.out = s.out ++ [v] := by
  by_cases hs : s.runState = .running
  · obtain ⟨-, rfl⟩ | ⟨-, -, rfl⟩ | ⟨-, op, -, ⟨g, -, rfl⟩ | ⟨i, -, hexec⟩⟩ := stepWith_running_cases hs h
    · exact .inl rfl
    · exact .inl rfl
    · exact .inl rfl
    · exact (exec_frame hexec).out.imp id fun ⟨_, v, _, hv⟩ => ⟨v, hv⟩
  · obtain rfl : s = t := Host.Outcome.next.inj ((stepWith_of_stopped hs).symm.trans h)
    exact .inl rfl

/-- Settles O27: by the frame of `exec`; the port shows the rest of the output after its old length. -/
theorem onlyPrnExtendsOutput : Obligations.OnlyPrnExtendsOutput := by
  unfold Obligations.OnlyPrnExtendsOutput
  refine ⟨fun _ _ => rfl, fun i s t h hprn => ?_, fun b s t ⟨_, hexec, hnofault⟩ => ?_, fun opc s t h => ?_⟩
  · obtain hsame | ⟨b, v, hi, -⟩ := (exec_frame h).out
    · exact hsame
    · exact absurd hi (hprn b)
  · obtain ⟨f, rfl, -, -⟩ | ⟨r, -, rfl⟩ := exec_cases hexec
    · exact absurd rfl (hnofault f)
    · exact ⟨s.reg r, rfl⟩
  · have hport : outPort opc s = (t.out.drop s.out.length).head? := by rw [outPort, h]
    obtain hsame | ⟨v, hv⟩ := stepWith_out h
    · simp [hport, hsame]
    · simp [hport, hv]

/-! ### `started` (R52, R77) -/

theorem State.loadWrite_of_started {s : State} (h : s.started = true) (a v : Byte) : s.loadWrite a v = s :=
  if_pos h

theorem State.loadWrite_of_not_started {s : State} (h : s.started = false) (a v : Byte) :
    s.loadWrite a v = s.writeCell a v :=
  if_neg (by simp [h])

/-- No input but `rst` clears `started`. -/
theorem applyInput_keeps_started {P : Params} {s t : State} {i : Input} (hstarted : s.started = true) (hrst : i ≠ .rst)
    (h : applyInput P s i = .next t) : t.started = true := by
  cases i with
  | rst => exact absurd rfl hrst
  | load a v =>
    obtain rfl : s.loadWrite a v = t := Host.Outcome.next.inj h
    rwa [State.loadWrite_of_started hstarted]
  | step =>
    by_cases hs : s.runState = .running
    · exact stepWith_running_started hs h
    · obtain rfl : s = t := Host.Outcome.next.inj ((stepWith_of_stopped hs).symm.trans h)
      exact hstarted
  | idle =>
    obtain rfl : s = t := Host.Outcome.next.inj h
    exact hstarted

/-- Settles O21: a step overwrites `started` before it does anything else, and no instruction writes it. -/
theorem startedGatesTheLoader : Obligations.StartedGatesTheLoader := by
  unfold Obligations.StartedGatesTheLoader
  refine ⟨fun _ _ => rfl, fun opc s hs => ?_, fun P s t i hstarted hrst h => applyInput_keeps_started hstarted hrst h,
    fun P s a v hgate => ?_, fun P s a v hgate => congrArg _ (State.loadWrite_of_started hgate a v)⟩
  · obtain ⟨t, ht⟩ := stepWith_answers_next opc s
    refine ⟨t, ht, stepWith_running_started hs ht, fun b => ?_⟩
    rw [← ht, stepWith_of_running hs, stepWith_of_running (s := { s with started := b }) hs]
    rfl
  · refine ⟨_, congrArg _ (State.loadWrite_of_not_started hgate a v), by simp, fun k hk => ?_, fun _ _ => rfl,
      rfl, rfl, rfl, rfl, rfl⟩
    rw [State.cell_writeCell, if_neg (by simpa using hk)]

/-! ### How an instruction ends -/

/-- A run of checks and effects ends in a fault with `Q` or in a state with `R`. -/
def EndsIn (Q : FaultCause → Prop) (R : State → Prop) : Except FaultCause State → Prop
  | .error f => Q f
  | .ok t => R t

namespace EndsIn

variable {Q : FaultCause → Prop} {R : State → Prop}

/-- One check, then the rest: a fault of the check ends the run. -/
theorem bind {α : Type} {e : Except FaultCause α} {k : α → Except FaultCause State}
    (herror : ∀ f, e = .error f → Q f) (hok : ∀ a, e = .ok a → EndsIn Q R (k a)) : EndsIn Q R (e >>= k) := by
  cases e with
  | error f => exact herror f rfl
  | ok a => exact hok a rfl

theorem regIdx_bind {b : Byte} {k : Fin 8 → Except FaultCause State} (hbad : 8 ≤ b.toNat → Q (.registerIndex b))
    (hok : ∀ r : Fin 8, b.toNat = r.val → EndsIn Q R (k r)) : EndsIn Q R (regIdx b >>= k) :=
  .bind (fun _ h => (regIdx_error_iff.mp h).2 ▸ hbad (regIdx_error_iff.mp h).1) fun r h => hok r (regIdx_ok_iff.mp h)

/-- The checked decrement of SP (R161). -/
theorem spDecrement_bind {s : State} {k : State → Except FaultCause State}
    (hzero : s.sp = 0 → Q (.stackUnderflow 0))
    (hok : s.sp ≠ 0 → EndsIn Q R (k (s.writeSp (s.sp - 1)))) : EndsIn Q R (spDecrement s >>= k) :=
  .bind (fun _ h => (spDecrement_error_iff.mp h).2 ▸ hzero (spDecrement_error_iff.mp h).1)
    fun _ h => (spDecrement_ok_iff.mp h).2 ▸ hok (spDecrement_ok_iff.mp h).1

/-- The checked increment of SP (R171). -/
theorem spIncrement_bind {s : State} {k : State → Except FaultCause State}
    (hmax : s.sp = 255 → Q (.stackOverflow 255))
    (hok : s.sp ≠ 255 → EndsIn Q R (k (s.writeSp (s.sp + 1)))) : EndsIn Q R (spIncrement s >>= k) :=
  .bind (fun _ h => (spIncrement_error_iff.mp h).2 ▸ hmax (spIncrement_error_iff.mp h).1)
    fun _ h => (spIncrement_ok_iff.mp h).2 ▸ hok (spIncrement_ok_iff.mp h).1

/-- The read of the cell at SP, whose address always exists (R166, R171). -/
theorem stackRead_bind {s : State} {k : Byte → Except FaultCause State}
    (hunset : s.cell s.sp.toNat = none → Q (.unsetRead s.sp.toPc))
    (hok : ∀ v, s.cell s.sp.toNat = some v → EndsIn Q R (k v)) : EndsIn Q R (memRead s s.sp.toPc >>= k) := by
  refine .bind (fun f h => ?_) fun v h => hok v ?_
  · obtain ⟨hrange, -⟩ | ⟨-, hnone, rfl⟩ := memRead_error_iff.mp h
    · exact absurd (Byte.toPc_lt s.sp) (Nat.not_lt.mpr hrange)
    · exact hunset (Byte.toPc_toNat s.sp ▸ hnone)
  · exact Byte.toPc_toNat s.sp ▸ (memRead_ok_iff.mp h).2

/-- CALL's return address (R170). -/
theorem returnAddress_bind {s : State} {k : Byte → Except FaultCause State}
    (hrange : 255 < s.pc.toNat + 2 → Q (.returnAddressRange (s.pc + 2)))
    (hok : s.pc.toNat ≤ 253 → EndsIn Q R (k (BitVec.ofNat 8 (s.pc.toNat + 2)))) :
    EndsIn Q R (returnAddress s >>= k) := by
  refine .bind (fun f h => (returnAddress_error_iff.mp h).2 ▸ hrange (returnAddress_error_iff.mp h).1) fun v h => ?_
  obtain ⟨hle, hv⟩ := returnAddress_ok_iff.mp h
  obtain rfl : v = BitVec.ofNat 8 (s.pc.toNat + 2) := by rw [← hv, BitVec.ofNat_toNat, BitVec.setWidth_eq]
  exact hok (by omega)

/-- Both register operands, then the ALU where its select is one of the three (R106). -/
theorem aluHandler {op : BitVec 2} {x y : Byte} {s : State} (out : Byte → Byte → AluOut)
    (hop : ∀ v w, alu op v w = .ok (out v w))
    (hx : 8 ≤ x.toNat → Q (.registerIndex x)) (hy : 8 ≤ y.toNat → Q (.registerIndex y))
    (hok : ∀ a b : Fin 8, x.toNat = a.val → y.toNat = b.val →
      R ((aluWriteBack s a (out (s.reg a) (s.reg b))).advance 3)) :
    EndsIn Q R (Machine.aluHandler op x y s) := by
  refine .regIdx_bind hx fun a ha => .regIdx_bind hy fun b hb => ?_
  rw [hop]
  exact hok a b ha hb

theorem jumpIf {taken : Bool} {b : Byte} {s : State} (hbad : 8 ≤ b.toNat → Q (.registerIndex b))
    (hok : ∀ r : Fin 8, b.toNat = r.val → R (s.setPc (if taken then (s.reg r).toPc else s.pc + 2))) :
    EndsIn Q R (Machine.jumpIf taken b s) :=
  .regIdx_bind hbad hok

end EndsIn

/-- The faults an instruction can take in `s`, each with its recorded value and its condition (R20, R161, R166, R170,
R171). -/
def InstrFault (i : Instr) (s : State) : FaultCause → Prop
  | .registerIndex b => b ∈ i.operands ∧ 8 ≤ b.toNat
  | .unsetRead a => a = s.sp.toPc ∧ s.cell s.sp.toNat = none
  | .stackUnderflow v => v = 0 ∧ s.sp = 0
  | .stackOverflow v => v = 255 ∧ s.sp = 255
  | .returnAddressRange a => i.opcode = .call ∧ 255 < s.pc.toNat + 2 ∧ a = s.pc + 2
  | .unsupportedOperation _ => False
  | .fetchOutOfRange _ => False
  | .operandOutOfRange _ => False

/-- Every instruction ends in one of its faults or in its effect. -/
theorem exec_finishes (i : Instr) (s : State) :
    ∃ e, exec i s = finish s e ∧ EndsIn (InstrFault i s) (InstrEffect i s) e := by
  cases i
  case ldi | prn | jmp =>
    exact ⟨_, rfl, .regIdx_bind (fun hx => ⟨.head _, hx⟩) fun r hr => ⟨r, hr, rfl⟩⟩
  case add x y =>
    exact ⟨_, rfl, .aluHandler _ alu_add (fun hx => ⟨.head _, hx⟩) (fun hy => ⟨.tail _ (.head _), hy⟩)
      fun a b ha hb => ⟨a, b, ha, hb, rfl⟩⟩
  case mul x y =>
    exact ⟨_, rfl, .aluHandler _ alu_mul (fun hx => ⟨.head _, hx⟩) (fun hy => ⟨.tail _ (.head _), hy⟩)
      fun a b ha hb => ⟨a, b, ha, hb, rfl⟩⟩
  case cmp x y =>
    exact ⟨_, rfl, .aluHandler _ alu_cmp (fun hx => ⟨.head _, hx⟩) (fun hy => ⟨.tail _ (.head _), hy⟩)
      fun a b ha hb => ⟨a, b, ha, hb, rfl⟩⟩
  case push x =>
    refine ⟨_, rfl, .regIdx_bind (fun hx => ⟨.head _, hx⟩) fun r hr =>
      .spDecrement_bind (fun h0 => ⟨rfl, h0⟩) fun h0 => ⟨r, hr, h0, ?_⟩⟩
    simp
  case call x =>
    refine ⟨_, rfl, .regIdx_bind (fun hx => ⟨.head _, hx⟩) fun r hr =>
      .spDecrement_bind (fun h0 => ⟨rfl, h0⟩) fun h0 => .returnAddress_bind (fun hp => ⟨rfl, hp, rfl⟩) fun hp =>
      ⟨r, hr, h0, hp, ?_⟩⟩
    simp
  case pop x =>
    exact ⟨_, rfl, .regIdx_bind (fun hx => ⟨.head _, hx⟩) fun r hr =>
      .stackRead_bind (fun hc => ⟨rfl, hc⟩) fun v hv => ⟨r, v, hr, hv, rfl⟩⟩
  case ret =>
    exact ⟨_, rfl, .stackRead_bind (fun hc => ⟨rfl, hc⟩) fun v hv =>
      .spIncrement_bind (fun h => ⟨rfl, h⟩) fun h => ⟨v, hv, h, rfl⟩⟩
  case jeq x | jne x =>
    refine ⟨_, rfl, .jumpIf (fun hx => ⟨.head _, hx⟩) fun r hr => ⟨r, hr, ?_⟩⟩
    simp [State.equalFlag]
  case hlt => exact ⟨.ok _, rfl, rfl⟩

/-- `exec_cases` with the condition of each fault. -/
theorem exec_fault_or_effect {i : Instr} {s t : State} (h : exec i s = .next t) :
    (∃ f, InstrFault i s f ∧ t = s.raise f) ∨ InstrEffect i s t := by
  obtain ⟨e, he, hends⟩ := exec_finishes i s
  obtain rfl | ⟨f, rfl, rfl⟩ := finish_next_iff.mp (he ▸ h)
  · exact .inr hends
  · exact .inl ⟨f, hends, rfl⟩

/-! ### What the operand reads say of the instruction (R91, R106) -/

theorem operands_cases (i : Instr) :
    i.operands = [] ∨ (∃ b, i.operands = [b]) ∨ ∃ b1 b2, i.operands = [b1, b2] := by
  cases i <;> simp [Instr.operands]

theorem memRead_after_pc {s : State} {b : Byte} {k : Nat} (hp : s.pc.toNat < 256) (hk : k ≤ 2)
    (h : memRead s (s.pc + BitVec.ofNat 9 k) = .ok b) :
    s.pc.toNat + k < 256 ∧ s.cell (s.pc.toNat + k) = some b := by
  have hadd : (s.pc + BitVec.ofNat 9 k).toNat = s.pc.toNat + k := by
    rw [BitVec.toNat_add, BitVec.toNat_ofNat]
    omega
  rw [← hadd]
  exact memRead_ok_iff.mp h

/-- Where the operand reads succeed, the whole instruction stands in memory, and its operand bytes are the one or two
bytes after the opcode. -/
theorem readOperands_ok_bytes {s : State} {op : Opcode} {i : Instr} (hp : s.pc.toNat < 256)
    (h : readOperands s op.format = .ok i) :
    s.pc.toNat + i.operands.length < 256 ∧
      ∀ b ∈ i.operands, s.cell (s.pc.toNat + 1) = some b ∨ s.cell (s.pc.toNat + 2) = some b := by
  obtain ⟨-, hread1, hread2⟩ := readOperands_ok h
  obtain hi | ⟨b, hi⟩ | ⟨b1, b2, hi⟩ := operands_cases i
  · simp [hi, hp]
  · obtain ⟨hroom, hcell⟩ := memRead_after_pc (k := 1) hp (by decide) (hread1 b b (.inl hi))
    simp [hi, hroom, hcell]
  · obtain ⟨-, hcell1⟩ := memRead_after_pc (k := 1) hp (by decide) (hread1 b1 b2 (.inr hi))
    obtain ⟨hroom, hcell2⟩ := memRead_after_pc (k := 2) hp (by decide) (hread2 b1 b2 hi)
    simp [hi, hroom, hcell1, hcell2]

/-! ### The invariant (R191) -/

theorem State.resetWith_inv (opc : OpcMap) (g : Vector Byte 7) (f : Byte) : State.Inv opc (State.resetWith g f) where
  memCanonical := rfl
  runningPc _ := Nat.zero_le 256
  haltedPc := nofun
  unrecognizedAtPc := nofun
  faultLegal := nofun
  stoppedStarted h := absurd rfl h

/-- Taking a fault that is legal in `s` gives a state with the invariant. -/
theorem State.raise_inv {opc : OpcMap} {s : State} {f : FaultCause} (hmem : s.mem.wf = true)
    (hstarted : s.started = true) (hlegal : FaultLegal s f) : State.Inv opc (s.raise f) where
  memCanonical := hmem
  runningPc := nofun
  haltedPc := nofun
  unrecognizedAtPc := nofun
  faultLegal g hg := by
    obtain rfl : f = g := RunState.faulted.inj hg
    cases f <;> exact hlegal
  stoppedStarted _ := hstarted

/-- A fault of the operand reads is one that R191 describes. -/
theorem faultLegal_of_readOperands_error {s : State} {fm : Format} {f : FaultCause} (hp : s.pc.toNat < 256)
    (h : readOperands s fm = .error f) : FaultLegal s f := by
  obtain ⟨rfl, hpc⟩ | ⟨a, rfl, hlt, hcell, ha⟩ := readOperands_error hp h
  · exact ⟨rfl, hpc⟩
  · exact ⟨hlt, hcell, ha.imp id .inl⟩

/-- A fault of an instruction whose bytes stand at the pc is one that R191 describes. -/
theorem InstrFault.legal {s : State} {op : Opcode} {i : Instr} {f : FaultCause} (h : InstrFault i s f)
    (hp : s.pc.toNat < 256) (hread : readOperands s op.format = .ok i) : FaultLegal s f := by
  obtain ⟨hroom, hbytes⟩ := readOperands_ok_bytes hp hread
  cases f with
  | registerIndex b => exact ⟨h.2, hbytes b h.1⟩
  | unsetRead a =>
    obtain ⟨rfl, hcell⟩ := h
    exact ⟨Byte.toPc_lt s.sp, (Byte.toPc_toNat s.sp).symm ▸ hcell, .inr (.inr rfl)⟩
  | stackUnderflow v => exact h
  | stackOverflow v => exact h
  | returnAddressRange a =>
    obtain ⟨hcall, hrange, rfl⟩ := h
    have hlength : i.operands.length = 1 := by
      cases i with
      | call b => rfl
      | _ => cases hcall
    have hpc : s.pc = 254 := by bv_omega
    exact ⟨by rw [hpc]; rfl, hpc⟩
  | unsupportedOperation o => exact h
  | fetchOutOfRange a => exact h.elim
  | operandOutOfRange a => exact h.elim

/-- Where a completed instruction continues (R110): after its own bytes, at a byte, or at HLT's sentinel. -/
theorem InstrEffect.pc_cases {i : Instr} {s t : State} (h : InstrEffect i s t) :
    t.pc = s.pc + BitVec.ofNat 9 (1 + i.operands.length) ∨ (∃ b : Byte, t.pc = b.toPc) ∨ i = .hlt ∧ t.pc = 257 := by
  cases i
  case hlt =>
    subst h
    exact .inr (.inr ⟨rfl, rfl⟩)
  case ldi | prn =>
    obtain ⟨_, _, rfl⟩ := h
    exact .inl rfl
  case add | mul | cmp | pop =>
    obtain ⟨_, _, _, _, rfl⟩ := h
    exact .inl rfl
  case push =>
    obtain ⟨_, _, _, rfl⟩ := h
    exact .inl rfl
  case call =>
    obtain ⟨_, _, _, _, rfl⟩ := h
    exact .inr (.inl ⟨_, rfl⟩)
  case ret =>
    obtain ⟨_, _, _, rfl⟩ := h
    exact .inr (.inl ⟨_, rfl⟩)
  case jmp =>
    obtain ⟨_, _, rfl⟩ := h
    exact .inr (.inl ⟨_, rfl⟩)
  case jeq | jne =>
    obtain ⟨_, _, rfl⟩ := h
    rw [State.setPc_pc]
    split
    · exact .inr (.inl ⟨_, rfl⟩)
    · exact .inl rfl

/-- A completed instruction whose bytes stand in memory gives a state with the invariant. -/
theorem InstrEffect.inv {opc : OpcMap} {i : Instr} {s t : State} (h : InstrEffect i s t) (hs : s.runState = .running)
    (hmem : s.mem.wf = true) (hstarted : s.started = true) (hroom : s.pc.toNat + i.operands.length < 256) :
    State.Inv opc t := by
  have hmem' : t.mem.wf = true := by
    obtain hsame | ⟨b, v, -, hstore⟩ := h.frame.mem
    · rwa [hsame]
    · rw [hstore]
      exact State.writeCell_wf (s.sp - 1) v hmem
  obtain hrun | ⟨rfl, -⟩ := h.runState_eq
  · rw [hs] at hrun
    have hpc : t.pc.toNat ≤ 256 := by
      obtain hnext | ⟨b, hbyte⟩ | ⟨rfl, -⟩ := h.pc_cases
      · rw [hnext, BitVec.toNat_add, BitVec.toNat_ofNat]
        omega
      · exact hbyte ▸ (Byte.toPc_lt b).le
      · subst h
        cases hrun
    exact ⟨hmem', fun _ => hpc, by simp [hrun], by simp [hrun], by simp [hrun], fun hstop => absurd hrun hstop⟩
  · subst h
    exact ⟨hmem', nofun, fun _ => rfl, nofun, nofun, fun _ => hstarted⟩

theorem fetchOutOfRange_legal {s : State} (hle : s.pc.toNat ≤ 256) (hge : 256 ≤ s.pc.toNat) :
    FaultLegal s (.fetchOutOfRange s.pc) := by
  have hpc : s.pc = 256 := BitVec.eq_of_toNat_eq (Nat.le_antisymm hle hge)
  exact ⟨hpc, hpc⟩

/-- A step keeps the invariant. -/
theorem stepWith_inv {opc : OpcMap} {s t : State} (hinv : State.Inv opc s) (h : stepWith opc s = .next t) :
    State.Inv opc t := by
  by_cases hs : s.runState = .running
  · have hmem : s.setStarted.mem.wf = true := hinv.memCanonical
    obtain ⟨hp, rfl⟩ | ⟨hp, hno, rfl⟩ | ⟨hp, op, hop, hrest⟩ := stepWith_running_cases hs h
    · exact State.raise_inv hmem rfl (fetchOutOfRange_legal (s := s.setStarted) (hinv.runningPc hs) hp)
    · refine ⟨hmem, nofun, nofun, fun c hc => ?_, nofun, fun _ => rfl⟩
      obtain rfl : s.cell s.pc.toNat = c := by simpa using hc
      exact ⟨hp, rfl, hno⟩
    · obtain ⟨f, hread, rfl⟩ | ⟨i, hread, hexec⟩ := hrest
      · exact State.raise_inv hmem rfl (faultLegal_of_readOperands_error hp hread)
      · obtain ⟨f, hfault, rfl⟩ | heffect := exec_fault_or_effect hexec
        · exact State.raise_inv hmem rfl (hfault.legal hp hread)
        · exact heffect.inv hs hmem rfl (readOperands_ok_bytes hp hread).1
  · obtain rfl : s = t := Host.Outcome.next.inj ((stepWith_of_stopped hs).symm.trans h)
    exact hinv

/-- A loader write keeps the invariant: the block that accepts it has not started, so it is Running. -/
theorem State.loadWrite_inv {opc : OpcMap} {s : State} (hinv : State.Inv opc s) (a v : Byte) :
    State.Inv opc (s.loadWrite a v) := by
  cases hgate : s.started with
  | true => rwa [State.loadWrite_of_started hgate]
  | false =>
    have hs : s.runState = .running := by
      by_contra hstopped
      simp [hinv.stoppedStarted hstopped] at hgate
    rw [State.loadWrite_of_not_started hgate]
    exact ⟨State.writeCell_wf a v hinv.memCanonical, fun _ => hinv.runningPc hs, by simp [hs], by simp [hs],
      by simp [hs], by simp [hs]⟩

/-- Every input has an answer, and it keeps the invariant. -/
theorem applyInput_inv {P : Params} {s : State} (hinv : State.Inv P.opc s) (i : Input) :
    ∃ t, applyInput P s i = .next t ∧ State.Inv P.opc t := by
  cases i with
  | rst => exact ⟨_, rfl, State.resetWith_inv P.opc P.gprInit P.flInit⟩
  | load a v => exact ⟨_, rfl, State.loadWrite_inv hinv a v⟩
  | step =>
    obtain ⟨t, ht⟩ := stepWith_answers_next P.opc s
    exact ⟨t, ht, stepWith_inv hinv ht⟩
  | idle => exact ⟨s, rfl, hinv⟩

theorem runInputs_inv {P : Params} (inputs : List Input) {s : State} (hinv : State.Inv P.opc s) :
    ∃ t, runInputs P inputs s = .next t ∧ State.Inv P.opc t := by
  induction inputs generalizing s with
  | nil => exact ⟨s, rfl, hinv⟩
  | cons i is ih =>
    obtain ⟨u, hu, hinv'⟩ := applyInput_inv hinv i
    rw [runInputs, hu]
    exact ih hinv'

/-- Settles O24: the reset state has the invariant and every input keeps it. -/
theorem portRunsKeepInvariant : Obligations.PortRunsKeepInvariant := by
  unfold Obligations.PortRunsKeepInvariant
  exact fun P inputs => runInputs_inv inputs (State.resetWith_inv P.opc P.gprInit P.flInit)

/-! ### Where a halt comes from (R44, R103, R175) -/

/-- Of the instructions only HLT halts, and it halts with its own cause. -/
theorem exec_halted_iff {i : Instr} {s t : State} {q : HaltCause} (hs : s.runState = .running)
    (h : exec i s = .next t) : t.runState = .halted q ↔ i = .hlt ∧ q = .hlt := by
  constructor
  · intro hq
    obtain ⟨f, rfl, -, -⟩ | heffect := exec_cases h
    · cases hq
    · obtain hkept | ⟨hi, hhalted⟩ := heffect.runState_eq
      · simp [hkept, hs] at hq
      · exact ⟨hi, by simpa [hhalted, eq_comm] using hq⟩
  · rintro ⟨rfl, rfl⟩
    obtain rfl : (s.halt .hlt).setPc 257 = t := Host.Outcome.next.inj h
    rfl

theorem opcode_eq_hlt_iff {i : Instr} : i.opcode = .hlt ↔ i = .hlt := by
  cases i <;> simp [Instr.opcode]

/-- A step of a Running block on a recognized opcode halts exactly on HLT. -/
theorem recognized_halted_iff {s t : State} {op : Opcode} {q : HaltCause} (hs : s.runState = .running)
    (h : (∃ f, readOperands s op.format = .error f ∧ t = s.raise f) ∨
      ∃ i, readOperands s op.format = .ok i ∧ exec i s = .next t) :
    t.runState = .halted q ↔ op = .hlt ∧ q = .hlt := by
  obtain ⟨f, hread, rfl⟩ | ⟨i, hread, hexec⟩ := h
  · have hop : op ≠ .hlt := by
      rintro rfl
      cases hread
    simp [hop]
  · rw [exec_halted_iff hs hexec, ← (readOperands_ok hread).1, opcode_eq_hlt_iff]

theorem opc_eq_iff {opc : OpcMap} (hd : OpcMap.Distinct opc) {op op' : Opcode} : opc op = opc op' ↔ op = op' :=
  ⟨fun h => List.inj_on_of_nodup_map hd (Opcode.mem_all op) (Opcode.mem_all op') h, congrArg opc⟩

/-- Settles O31: case by case of what a step of a Running block can do. -/
theorem haltCausesAreExact : Obligations.HaltCausesAreExact := by
  unfold Obligations.HaltCausesAreExact
  intro opc s t hdistinct hs h
  obtain ⟨hp, rfl⟩ | ⟨hp, hno, rfl⟩ | ⟨hp, op, hop, hrest⟩ := stepWith_running_cases hs h
  · simp [Nat.not_lt.mpr hp]
  · refine ⟨by simp [hno .hlt], fun c => ⟨fun hc => ?_, ?_⟩⟩
    · obtain rfl : s.cell s.pc.toNat = c := by simpa using hc
      exact ⟨hp, rfl, hno⟩
    · rintro ⟨-, rfl, -⟩
      rfl
  · have hhalt := fun q => recognized_halted_iff (q := q) (s := s.setStarted) hs hrest
    refine ⟨by simp [hhalt, hp, hop, opc_eq_iff hdistinct], fun c => ⟨fun hc => ?_, ?_⟩⟩
    · cases ((hhalt _).mp hc).2
    · rintro ⟨-, rfl, hno⟩
      exact absurd hop (hno op)

/-! ### The status port (R45, R191) -/

theorem toPc_ne_256 (b : Byte) : b.toPc ≠ 256#9 := fun h => absurd (Byte.toPc_lt b) (by rw [h]; decide)

theorem setWidth_toPc (b : Byte) : b.toPc.setWidth 8 = b := by
  rw [Byte.toPc, BitVec.setWidth_setWidth_of_le _ (by decide), BitVec.setWidth_eq]

/-- Settles O48: cause by cause, with what the invariant says of the recorded value. -/
theorem statusPortShowsR191 : Obligations.StatusPortShowsR191 := by
  unfold Obligations.StatusPortShowsR191
  intro opc s hinv
  cases hq : s.runState with
  | running => simp [RunState.stateField, RunState.causeField, RunState.infoField]
  | halted c =>
    cases c with
    | hlt => simp [RunState.stateField, RunState.causeField, RunState.infoField]
    | unrecognizedOpcode c =>
      obtain ⟨-, hcell, -⟩ := hinv.unrecognizedAtPc c hq
      cases c with
      | none => simp [RunState.stateField, RunState.causeField, RunState.infoField, hcell]
      | some b =>
        simp [RunState.stateField, RunState.causeField, RunState.infoField, hcell, toPc_ne_256 b, setWidth_toPc b]
  | faulted f =>
    have hlegal := hinv.faultLegal f hq
    cases f with
    | unsupportedOperation o => exact hlegal.elim
    | fetchOutOfRange a | operandOutOfRange a | returnAddressRange a =>
      obtain ⟨rfl, -⟩ := hlegal
      simp [RunState.stateField, RunState.causeField, RunState.infoField]
    | stackUnderflow v | stackOverflow v =>
      obtain ⟨rfl, -⟩ := hlegal
      simp [RunState.stateField, RunState.causeField, RunState.infoField, Byte.toPc]
    | unsetRead a =>
      obtain ⟨hlt, hcell, -⟩ := hlegal
      simpa [RunState.stateField, RunState.causeField, RunState.infoField, hcell] using hlt
    | registerIndex b =>
      obtain ⟨hge, -⟩ := hlegal
      simpa [RunState.stateField, RunState.causeField, RunState.infoField, Byte.toPc_toNat, hge] using b.isLt

end Sys2Proof.Machine

/-! Proofs of the statements of 20_memory.md: the canonical form (R60, R61), who writes memory (R63), SP (R69), fetching
what the stack wrote (R73), the loader (R74, R76) and the image text (R75). -/

namespace Sys2Proof.Machine

/-! ### The canonical form (R60, R61) -/

theorem Memory.wfFrom_cons_iff {m : Memory} {lo a : Nat} {v : Byte} :
    Memory.wfFrom lo ((a, v) :: m) = true ↔ lo ≤ a ∧ a < 256 ∧ m.wfFrom (a + 1) = true := by
  simp [Memory.wfFrom, and_assoc]

theorem Memory.lookup_head (a : Nat) (v : Byte) (m : Memory) : Memory.lookup ((a, v) :: m) a = some v := if_pos rfl

/-- A canonical memory holds no byte below its first listed address. -/
theorem Memory.head_le_of_lookup_some {m : Memory} {lo a k : Nat} {v w : Byte}
    (h : Memory.wfFrom lo ((a, v) :: m) = true) (hk : Memory.lookup ((a, v) :: m) k = some w) : a ≤ k := by
  by_contra hlt
  obtain ⟨-, ha, hm⟩ := Memory.wfFrom_cons_iff.mp h
  have hnone : Memory.lookup ((a, v) :: m) k = none :=
    Memory.lookup_none_of_wfFrom (lo := a) (Memory.wfFrom_cons_iff.mpr ⟨le_rfl, ha, hm⟩) (.inl (by omega))
  simp [hnone] at hk

/-- Two canonical memories that read alike everywhere are the same list: they begin with the same cell, and past it
they read alike again. -/
theorem Memory.ext_of_wfFrom {m m' : Memory} {lo : Nat} (h : m.wfFrom lo = true) (h' : m'.wfFrom lo = true)
    (hread : ∀ a, m.lookup a = m'.lookup a) : m = m' := by
  induction m generalizing m' lo with
  | nil =>
    cases m' with
    | nil => rfl
    | cons c m' => simpa [Memory.lookup] using hread c.1
  | cons c m ih =>
    obtain ⟨a, v⟩ := c
    cases m' with
    | nil => simpa [Memory.lookup] using hread a
    | cons c' m' =>
      obtain ⟨a', v'⟩ := c'
      obtain rfl : a = a' :=
        Nat.le_antisymm (Memory.head_le_of_lookup_some h ((hread a').trans (Memory.lookup_head a' v' m')))
          (Memory.head_le_of_lookup_some h' ((hread a).symm.trans (Memory.lookup_head a v m)))
      obtain ⟨-, -, hm⟩ := Memory.wfFrom_cons_iff.mp h
      obtain ⟨-, -, hm'⟩ := Memory.wfFrom_cons_iff.mp h'
      obtain rfl : v = v' := by simpa [Memory.lookup] using hread a
      rw [ih hm hm' fun k => ?_]
      by_cases hk : k = a
      · have hbelow : k < a + 1 ∨ 256 ≤ k := .inl (by omega)
        rw [Memory.lookup_none_of_wfFrom hm hbelow, Memory.lookup_none_of_wfFrom hm' hbelow]
      · simpa [Memory.lookup, hk] using hread k

/-- Settles O33: above 255 neither memory lists a cell, so they read alike everywhere. -/
theorem memoryFormIsCanonical : Obligations.MemoryFormIsCanonical := by
  unfold Obligations.MemoryFormIsCanonical
  intro m m' h h' hread
  refine Memory.ext_of_wfFrom h h' fun a => ?_
  by_cases ha : a < 256
  · exact hread a ha
  · have habove : a < 0 ∨ 256 ≤ a := .inr (by omega)
    rw [Memory.lookup_none_of_wfFrom h habove, Memory.lookup_none_of_wfFrom h' habove]

/-! ### What a completed instruction does to memory and to SP (R63, R69, R73) -/

theorem Completes.effect {i : Instr} {s t : State} (h : Completes i s t) : InstrEffect i s t := by
  obtain ⟨-, hexec, hnofault⟩ := h
  obtain ⟨f, rfl, -, -⟩ | heffect := exec_cases hexec
  · exact absurd rfl (hnofault f)
  · exact heffect

/-- A completed PUSH takes one from a non-zero SP and stores its register, read after the decrement, at the new SP. -/
theorem InstrEffect.push_stored {b : Byte} {s t : State} (h : InstrEffect (.push b) s t) :
    ∃ r : Fin 8, b.toNat = r.val ∧ s.sp ≠ 0 ∧ t.sp = s.sp - 1 ∧
      t.cell (s.sp - 1).toNat = some (if r = 7 then s.sp - 1 else s.reg r) := by
  obtain ⟨r, hr, hsp, rfl⟩ := h
  exact ⟨r, hr, hsp, by simp, by simp⟩

/-- A completed CALL takes one from a non-zero SP and stores pc + 2 at the new SP. -/
theorem InstrEffect.call_stored {b : Byte} {s t : State} (h : InstrEffect (.call b) s t) :
    s.sp ≠ 0 ∧ t.sp = s.sp - 1 ∧
      ∃ ra : Byte, ra.toNat = s.pc.toNat + 2 ∧ t.cell (s.sp - 1).toNat = some ra := by
  obtain ⟨r, -, hsp, hpc, rfl⟩ := h
  refine ⟨hsp, by simp, BitVec.ofNat 8 (s.pc.toNat + 2), ?_, by simp⟩
  rw [BitVec.toNat_ofNat]
  omega

/-- Settles O26: by the frame of `exec`, and by what a completed PUSH or CALL stores. -/
theorem onlyPushAndCallWriteMemory : Obligations.OnlyPushAndCallWriteMemory := by
  unfold Obligations.OnlyPushAndCallWriteMemory
  refine fun i s t h => ⟨fun hpush hcall a _ => ?_, fun _ a ha => ?_, fun hdone hi => ?_⟩
  · obtain hsame | ⟨b, v, rfl | rfl, -⟩ := (exec_frame h).mem
    · exact congrArg (Memory.lookup · a) hsame
    · exact absurd rfl (hpush b)
    · exact absurd rfl (hcall b)
  · obtain hsame | ⟨b, v, -, hstore⟩ := (exec_frame h).mem
    · exact congrArg (Memory.lookup · a) hsame
    · rw [State.cell, hstore, Memory.lookup_store, if_neg (by simpa using ha), State.cell]
  · obtain ⟨b, rfl | rfl⟩ := hi
    · obtain ⟨r, -, -, -, hcell⟩ := hdone.effect.push_stored
      exact Option.isSome_of_eq_some hcell
    · obtain ⟨-, -, ra, -, hcell⟩ := hdone.effect.call_stored
      exact Option.isSome_of_eq_some hcell

theorem fetch_setPc_toPc (s : State) (a : Byte) : fetch (s.setPc a.toPc) = .ok (s.cell a.toNat) := by
  rw [fetch_ok_iff, State.setPc_pc, State.setPc_cell, Byte.toPc_toNat]
  exact ⟨a.isLt, rfl⟩

/-- Settles O47: the fetch at the new SP reads the cell that the PUSH or CALL stored. -/
theorem stackWritesAreFetched : Obligations.StackWritesAreFetched := by
  unfold Obligations.StackWritesAreFetched
  refine fun s t b r hr => ⟨fun hpush => ?_, fun hcall => ?_⟩
  · obtain ⟨r', hr', -, hsp, hcell⟩ := hpush.effect.push_stored
    obtain rfl : r' = r := Fin.ext (hr' ▸ hr)
    exact (fetch_setPc_toPc t t.sp).trans (by rw [hsp, hcell])
  · obtain ⟨-, hsp, ra, hra, hcell⟩ := hcall.effect.call_stored
    exact ⟨ra, hra, (fetch_setPc_toPc t t.sp).trans (by rw [hsp, hcell])⟩

/-- The operand byte 7 is the one that names SP. -/
theorem spIndex_eq_iff {b : Byte} {r : Fin 8} (h : b.toNat = r.val) : Config.spIndex = r ↔ b = 7 := by
  rw [Fin.ext_iff, ← h, ← BitVec.toNat_inj, eq_comm]
  rfl

/-- POP's clamped increment, of SP as the register write before it left SP (R162, R164). -/
theorem sp_spIncrementClamped (s : State) : (spIncrementClamped s).sp.toNat = min (s.sp.toNat + 1) 244 := by
  rw [spIncrementClamped, State.sp_writeSp, BitVec.toNat_ofNat]
  simp only [Config.spPopClamp]
  omega

/-- Settles O30: instruction by instruction, SP read off the completed state. -/
theorem onlyPopClampsSp : Obligations.OnlyPopClampsSp := by
  unfold Obligations.OnlyPopClampsSp
  intro i s t hdone
  have h := hdone.effect
  cases i
  case push b =>
    obtain ⟨_, -, hne, hsp, -⟩ := h.push_stored
    obtain ⟨hpred, hpos⟩ := byte_pred hne
    simp only [hsp, hpred]
    omega
  case call b =>
    obtain ⟨hne, hsp, -⟩ := h.call_stored
    obtain ⟨hpred, hpos⟩ := byte_pred hne
    simp only [hsp, hpred]
    omega
  case ret =>
    obtain ⟨_, -, hne, rfl⟩ := h
    simp only [State.setPc_sp, State.sp_writeSp, byte_succ hne]
  case pop b =>
    obtain ⟨r, v, hr, hcell, rfl⟩ := h
    refine ⟨v, hcell, ?_⟩
    simp only [State.advance_sp, sp_spIncrementClamped, State.sp_writeReg, spIndex_eq_iff hr]
  case ldi b v =>
    obtain ⟨r, hr, rfl⟩ := h
    simp only [State.advance_sp, State.sp_writeReg, spIndex_eq_iff hr]
  case add x y | mul x y =>
    obtain ⟨a, b, ha, hb, rfl⟩ := h
    refine ⟨b, hb, ?_⟩
    rw [State.advance_sp, State.sp_writeReg]
    by_cases hx : x = 7
    · obtain rfl := (spIndex_eq_iff ha).mpr hx
      simp [hx, sat8_toNat, State.sp]
    · rw [if_neg (mt (spIndex_eq_iff ha).mp hx), if_neg hx]
  case prn | jmp | jeq | jne =>
    obtain ⟨_, _, rfl⟩ := h
    rfl
  case cmp =>
    obtain ⟨_, _, _, _, rfl⟩ := h
    rfl
  case hlt =>
    subst h
    rfl

/-! ### The loader (R74, R76) -/

theorem loadFrom_cons_of_lt {k : Nat} (hk : k < 256) (b : Byte) (bs : List Byte) (s : State) :
    loadFrom k (b :: bs) s = loadFrom (k + 1) bs (s.loadWrite (BitVec.ofNat 8 k) b) :=
  if_pos hk

theorem loadFrom_cons_of_full {k : Nat} (hk : 256 ≤ k) (b : Byte) (bs : List Byte) (s : State) :
    loadFrom k (b :: bs) s = (.overflow, s) :=
  if_neg (Nat.not_lt.mpr hk)

/-- A loader write changes memory at most. -/
theorem State.loadWrite_frame (s : State) (a v : Byte) : ∃ m, s.loadWrite a v = { s with mem := m } := by
  by_cases hgate : s.started = true
  · exact ⟨s.mem, State.loadWrite_of_started hgate a v⟩
  · exact ⟨_, if_neg hgate⟩

/-- Loading changes memory at most. -/
theorem loadFrom_frame (k : Nat) (bs : List Byte) (s : State) : ∃ m, (loadFrom k bs s).2 = { s with mem := m } := by
  induction bs generalizing k s with
  | nil => exact ⟨s.mem, rfl⟩
  | cons b bs ih =>
    obtain hk | hk := Nat.lt_or_ge k 256
    · obtain ⟨m, hm⟩ := s.loadWrite_frame (BitVec.ofNat 8 k) b
      rw [loadFrom_cons_of_lt hk, hm]
      exact ih (k + 1) { s with mem := m }
    · rw [loadFrom_cons_of_full hk]
      exact ⟨s.mem, rfl⟩

/-- Loading overflows exactly where the bytes do not fit below address 256 (R76). -/
theorem loadFrom_status {k : Nat} (hk : k ≤ 256) (bs : List Byte) (s : State) :
    (loadFrom k bs s).1 = if k + bs.length ≤ 256 then .ok else .overflow := by
  induction bs generalizing k s with
  | nil => exact (if_pos hk).symm
  | cons b bs ih =>
    rw [List.length_cons, Nat.add_comm bs.length, ← Nat.add_assoc]
    obtain hlt | hfull := Nat.lt_or_ge k 256
    · rw [loadFrom_cons_of_lt hlt, ih hlt]
    · rw [loadFrom_cons_of_full hfull, if_neg (by omega)]

/-- Before the first step, loading from address `k` on leaves the cells below `k`, and writes the others as far as the
bytes reach (R74). -/
theorem loadFrom_cell {k a : Nat} (ha : a < 256) (bs : List Byte) {s : State} (hs : s.started = false) :
    (loadFrom k bs s).2.cell a = if a < k then s.cell a else bs[a - k]?.or (s.cell a) := by
  induction bs generalizing k s with
  | nil => simp [loadFrom]
  | cons b bs ih =>
    obtain hk | hk := Nat.lt_or_ge k 256
    · have haddr : (BitVec.ofNat 8 k).toNat = k := Nat.mod_eq_of_lt hk
      rw [loadFrom_cons_of_lt hk, State.loadWrite_of_not_started hs, ih (s := s.writeCell _ b) hs,
        State.cell_writeCell, haddr]
      obtain hlt | rfl | hgt := Nat.lt_trichotomy a k
      · rw [if_pos (by omega), if_neg (by omega), if_pos hlt]
      · simp
      · have hindex : a - k = a - (k + 1) + 1 := by omega
        rw [if_neg (by omega), if_neg (by omega), if_neg (by omega), hindex, List.getElem?_cons_succ]
    · rw [loadFrom_cons_of_full hk, if_pos (by omega)]

/-- Settles O39: the status, the cells and the frame of loading, from the reset state's unset memory. -/
theorem loaderPlacesTheImage : Obligations.LoaderPlacesTheImage := by
  unfold Obligations.LoaderPlacesTheImage
  intro P image
  have hstatus : (boot P image).1 = if image.length ≤ 256 then .ok else .overflow := by
    rw [boot, loadImage, loadFrom_status (Nat.zero_le 256), Nat.zero_add]
  have hcell (k : Nat) (hk : k < 256) : (boot P image).2.cell k = image[k]? := by
    rw [boot, loadImage, loadFrom_cell hk image (s := State.resetWith P.gprInit P.flInit) rfl,
      if_neg (Nat.not_lt_zero k), Nat.sub_zero]
    exact Option.or_none
  obtain ⟨m, hframe⟩ : ∃ m, (boot P image).2 = { State.resetWith P.gprInit P.flInit with mem := m } :=
    loadFrom_frame 0 image _
  refine ⟨(boot P image).2, Prod.ext hstatus rfl, hcell, ?_, ?_⟩
  · rw [hstatus]
    split
    · exact iff_of_true rfl ‹_›
    · exact iff_of_false nofun ‹_›
  · rw [hframe]
    exact ⟨rfl, rfl, rfl, rfl, rfl, rfl⟩

/-! ### The image text (R75) -/

/-- The character of a base-2 digit. -/
def digitChar (d : Bool) : Char := if d then '1' else '0'

theorem digitChar_ne_hash (d : Bool) : digitChar d ≠ '#' := by cases d <;> decide

theorem digitChar_not_whitespace (d : Bool) : (digitChar d).isWhitespace = false := by cases d <;> decide

/-- A numeral of digits only has a value: each digit doubles it and adds itself. -/
theorem baseTwo_digits (ds : List Bool) (acc : Nat) :
    baseTwo acc (ds.map digitChar) = some (ds.foldl (fun n d => 2 * n + d.toNat) acc) := by
  induction ds generalizing acc with
  | nil => rfl
  | cons d ds ih =>
    cases d
    · exact ih (2 * acc)
    · exact ih (2 * acc + 1)

/-- The comment goes with its `#`, then the blanks before it; the digits stay. -/
theorem lineBody_digits (ds : List Bool) (blanks : Nat) (comment : List Char) :
    lineBody (ds.map digitChar ++ List.replicate blanks ' ' ++ '#' :: comment) = ds.map digitChar := by
  have hcut : (ds.map digitChar ++ List.replicate blanks ' ' ++ '#' :: comment).takeWhile (· ≠ '#') =
      ds.map digitChar ++ List.replicate blanks ' ' := by
    rw [List.takeWhile_append_of_pos, List.takeWhile_cons_of_neg (by decide), List.append_nil]
    intro c hc
    obtain hdigit | hblank := List.mem_append.mp hc
    · obtain ⟨d, -, rfl⟩ := List.mem_map.mp hdigit
      exact decide_eq_true (digitChar_ne_hash d)
    · rw [List.eq_of_mem_replicate hblank]
      decide
  have hblanks : ∀ c ∈ List.replicate blanks ' ', c.isWhitespace = true := fun c hc => by
    rw [List.eq_of_mem_replicate hc]
    decide
  have hdigits : (ds.map digitChar).reverse.dropWhile Char.isWhitespace = (ds.map digitChar).reverse := by
    rw [← List.map_reverse]
    cases ds.reverse with
    | nil => rfl
    | cons d ds => exact List.dropWhile_cons_of_neg (by simp [digitChar_not_whitespace])
  rw [lineBody, hcut, List.reverse_append, List.reverse_replicate, List.dropWhile_append_of_pos hblanks, hdigits,
    List.reverse_reverse]

theorem parseLine_of_blank {line : List Char} (h : lineBody line = []) : parseLine line = some none := by
  rw [parseLine, h]

theorem parseLine_of_numeral {line : List Char} {n : Nat} (hne : lineBody line ≠ [])
    (h : baseTwo 0 (lineBody line) = some n) :
    parseLine line = if n < 256 then some (some (BitVec.ofNat 8 n)) else none := by
  rw [parseLine]
  cases hbody : lineBody line with
  | nil => exact absurd hbody hne
  | cons c cs =>
    rw [hbody] at h
    simp only [h]

/-- Settles O40: the line's body is its digits, and their value is the fold. -/
theorem imageTextLines : Obligations.ImageTextLines := by
  unfold Obligations.ImageTextLines
  intro ds blanks comment line n
  have hbody : lineBody line = ds.map digitChar := lineBody_digits ds blanks comment
  have hnumeral (hne : ds ≠ []) : parseLine line = if n < 256 then some (some (BitVec.ofNat 8 n)) else none :=
    parseLine_of_numeral (by simpa [hbody] using hne) (hbody ▸ baseTwo_digits ds 0)
  refine ⟨fun hnil => parseLine_of_blank (by simp [hbody, hnil]), fun hne hlt => ?_, fun hne hge => ?_⟩
  · rw [hnumeral hne, if_pos hlt]
  · rw [hnumeral hne, if_neg (Nat.not_lt.mpr hge)]

end Sys2Proof.Machine

/-! Proofs of the statements of 30_encoding.md: the decoder and the encoder (R90 to R97, R109), the step on a decoded
instruction (R101, R104) and on an unrecognized byte (R103), the next pc (R105, R110). -/

namespace Sys2Proof.Machine

/-! ### The decoder against the encoder (R90, R91, R94, R97, R109) -/

theorem decodeOpcode_some_iff {opc : OpcMap} (hd : OpcMap.Distinct opc) {b : Byte} {op : Opcode} :
    decodeOpcode opc b = some op ↔ b = opc op := by
  constructor
  · exact fun h => (decodeOpcode_byte h).symm
  · rintro rfl
    exact decodeOpcode_self hd op

/-- The operand stage gives exactly the instruction of the operation whose operand bytes come first. -/
theorem decodeOperands_ok_iff {op : Opcode} {bytes rest : List Byte} {i : Instr} :
    decodeOperands op bytes = .ok (i, rest) ↔ i.opcode = op ∧ bytes = i.operands ++ rest := by
  constructor
  · intro h
    cases op
    case hlt | ret =>
      cases h
      exact ⟨rfl, rfl⟩
    case prn | push | pop | call | jmp | jeq | jne =>
      match bytes, h with
      | _ :: _, rfl => exact ⟨rfl, rfl⟩
    case ldi | add | mul | cmp =>
      match bytes, h with
      | _ :: _ :: _, rfl => exact ⟨rfl, rfl⟩
  · rintro ⟨rfl, rfl⟩
    cases i <;> rfl

/-- What decodes is an opcode byte the decoder recognizes, then the operand bytes of an instruction of that operation. -/
theorem decode_ok_iff {opc : OpcMap} {bytes rest : List Byte} {i : Instr} :
    decode opc bytes = .ok (i, rest) ↔
      ∃ b, decodeOpcode opc b = some i.opcode ∧ bytes = b :: (i.operands ++ rest) := by
  cases bytes with
  | nil => simp [decode]
  | cons b tail =>
    rw [decode]
    cases hop : decodeOpcode opc b with
    | none => simp [hop]
    | some op =>
      simp only [decodeOperands_ok_iff]
      simp [hop, eq_comm]

/-- The round trip, for every opcode map of distinct bytes. -/
theorem decode_encode {opc : OpcMap} (hd : OpcMap.Distinct opc) (i : Instr) (rest : List Byte) :
    decode opc (encode opc i ++ rest) = .ok (i, rest) :=
  decode_ok_iff.mpr ⟨opc i.opcode, decodeOpcode_self hd i.opcode, rfl⟩

/-- Settles O35: the decoder recognizes the opcode byte, and the operand stage takes back the operand bytes. -/
theorem decodeOfEncode : Obligations.DecodeOfEncode := by
  unfold Obligations.DecodeOfEncode
  exact fun opc hd i rest => decode_encode hd i rest

/-- Settles O34: the decoder answers an operation only for its own byte, and distinct bytes leave no other answer. -/
theorem decoderMatchesWholeByte : Obligations.DecoderMatchesWholeByte := by
  unfold Obligations.DecoderMatchesWholeByte
  refine fun opc hd b => ⟨fun op => decodeOpcode_some_iff hd, decodeOpcode_none_iff.trans ?_⟩
  exact forall_congr' fun op => ne_comm

/-- Settles O36: the opcode byte that decodes to an operation is the operation's own. -/
theorem decodeAcceptsOnlyEncodings : Obligations.DecodeAcceptsOnlyEncodings := by
  unfold Obligations.DecodeAcceptsOnlyEncodings
  intro opc bytes rest i h
  obtain ⟨b, hop, rfl⟩ := decode_ok_iff.mp h
  rw [← decodeOpcode_byte hop]
  rfl

/-- Settles O37: each word is the encoding of its instruction under the default map. -/
theorem specWordsDecode : Obligations.SpecWordsDecode := by
  unfold Obligations.SpecWordsDecode
  have hword (i : Instr) : decode opcDefault (encode opcDefault i ++ []) = .ok (i, []) :=
    decode_encode opcDefault_distinct i []
  exact ⟨hword (.ldi 0 8), hword (.prn 3), hword (.add 0 1), hword (.cmp 0 2), hword (.pop 2), hword (.call 1),
    hword .ret, hword .hlt⟩

/-! ### A step on bytes that decode (R101, R104) -/

/-- Where a byte sequence stands in memory, its first byte is in its cell and the others stand after it. -/
theorem BytesAt.uncons {s : State} {a : Nat} {b : Byte} {bs : List Byte} (h : BytesAt s a (b :: bs)) :
    a < 256 ∧ s.cell a = some b ∧ BytesAt s (a + 1) bs := by
  obtain ⟨hroom, hcells⟩ := h
  rw [List.length_cons, Config.memSize] at hroom
  refine ⟨by omega, hcells 0 (Nat.zero_lt_succ _), by rw [Config.memSize]; omega, fun k hk => ?_⟩
  rw [Nat.add_right_comm]
  exact hcells (k + 1) (Nat.succ_lt_succ hk)

theorem memRead_pc_add {s : State} {b : Byte} {k : Nat} (hk : s.pc.toNat + k < 256)
    (hcell : s.cell (s.pc.toNat + k) = some b) : memRead s (s.pc + BitVec.ofNat 9 k) = .ok b := by
  have hadd : (s.pc + BitVec.ofNat 9 k).toNat = s.pc.toNat + k := by
    rw [BitVec.toNat_add, BitVec.toNat_ofNat]
    omega
  exact memRead_ok_iff.mpr (hadd ▸ ⟨hk, hcell⟩)

/-- The operand reads give the instruction whose operand bytes stand after the opcode. -/
theorem readOperands_of_bytesAt {s : State} {i : Instr} {rest : List Byte}
    (h : BytesAt s (s.pc.toNat + 1) (i.operands ++ rest)) : readOperands s i.opcode.format = .ok i := by
  cases i
  case hlt | ret => rfl
  case prn | push | pop | call | jmp | jeq | jne =>
    obtain ⟨hroom, hcell, -⟩ := h.uncons
    have hread := memRead_pc_add hroom hcell
    simp [Instr.opcode, Opcode.format, readOperands, bind, Except.bind, hread]
  case ldi | add | mul | cmp =>
    obtain ⟨hroom1, hcell1, h2⟩ := h.uncons
    obtain ⟨hroom2, hcell2, -⟩ := h2.uncons
    have hread1 := memRead_pc_add hroom1 hcell1
    have hread2 := memRead_pc_add hroom2 hcell2
    simp [Instr.opcode, Opcode.format, readOperands, bind, Except.bind, hread1, hread2]

/-- Where the bytes at the pc decode to an instruction, the engine's answer is its meaning. -/
theorem fetchDecodeExecute_of_decode {opc : OpcMap} {s : State} {bytes rest : List Byte} {i : Instr}
    (hbytes : BytesAt s s.pc.toNat bytes) (h : decode opc bytes = .ok (i, rest)) :
    fetchDecodeExecute opc s = exec i s := by
  obtain ⟨b, hop, rfl⟩ := decode_ok_iff.mp h
  obtain ⟨hpc, hcell, htail⟩ := hbytes.uncons
  have hfetch : fetch s = .ok (some b) := fetch_ok_iff.mpr ⟨hpc, hcell.symm⟩
  simp [fetchDecodeExecute, hfetch, hop, readOperands_of_bytesAt htail]

/-- Settles O17: `started` moves neither the pc nor memory, so the bytes still stand there for the engine. -/
theorem stepRunsDecodedInstruction : Obligations.StepRunsDecodedInstruction := by
  unfold Obligations.StepRunsDecodedInstruction
  refine ⟨fun opc s bytes rest i hs hbytes h => ?_, fun s => rfl⟩
  rw [stepWith_of_running hs]
  exact fetchDecodeExecute_of_decode hbytes h

/-! ### A step on an unrecognized byte or an unset cell (R96, R103) -/

theorem stepWith_of_unrecognized {opc : OpcMap} {s : State} (hs : s.runState = .running) (hp : s.pc.toNat < 256)
    (hno : ∀ op, s.cell s.pc.toNat ≠ some (opc op)) :
    stepWith opc s = .next (s.setStarted.halt (.unrecognizedOpcode (s.cell s.pc.toNat))) := by
  obtain ⟨t, h⟩ := stepWith_answers_next opc s
  obtain ⟨hge, -⟩ | ⟨-, -, rfl⟩ | ⟨-, op, hop, -⟩ := stepWith_running_cases hs h
  · omega
  · exact h
  · exact absurd hop (hno op)

/-- Under any map of distinct bytes 243 bytes are unrecognized: the recognized ones are, in some order, the map's 13. -/
theorem unrecognizedBytes_length {opc : OpcMap} (hd : OpcMap.Distinct opc) :
    ((List.range 256).filter fun n => (decodeOpcode opc (BitVec.ofNat 8 n)).isNone).length = 243 := by
  have hrecognized : ((List.range 256).filter fun n => !(decodeOpcode opc (BitVec.ofNat 8 n)).isNone).Perm
      ((Opcode.all.map opc).map BitVec.toNat) := by
    refine (List.perm_ext_iff_of_nodup (List.nodup_range.filter _) (hd.map BitVec.toNat_injective)).mpr fun n => ?_
    have hbyte (b : Byte) : n < 256 ∧ b = BitVec.ofNat 8 n ↔ b.toNat = n := by bv_omega
    simp [Option.isSome_iff_ne_none, decodeOpcode_none_iff, Opcode.mem_all, ← hbyte]
  have hsplit := List.length_eq_length_filter_add (l := List.range 256)
    fun n => (decodeOpcode opc (BitVec.ofNat 8 n)).isNone
  rw [hrecognized.length_eq, List.length_map, List.length_map, List.length_range] at hsplit
  exact Nat.add_right_cancel hsplit.symm

/-- Settles O18: the count holds of any map of distinct bytes; a step on such a cell can only halt with it as its cause. -/
theorem unrecognizedOpcodeHalts : Obligations.UnrecognizedOpcodeHalts := by
  unfold Obligations.UnrecognizedOpcodeHalts
  refine ⟨unrecognizedBytes_length opcDefault_distinct, rfl, ?_⟩
  rintro opc s c hs hp rfl hno
  refine ⟨_, stepWith_of_unrecognized hs hp hno, rfl, rfl, fun hunset => ?_, fun b hb => ?_⟩
  · rw [hunset]
    rfl
  · rw [hb]
    exact Byte.toPc_toNat b

/-! ### The next pc (R105, R110) -/

/-- An instruction whose bytes stand in memory leaves the pc above 256 exactly if it is HLT. -/
theorem exec_pc_le_or_hlt {i : Instr} {s t : State} (h : exec i s = .next t)
    (hroom : s.pc.toNat + i.operands.length < 256) : i ≠ .hlt ∧ t.pc.toNat ≤ 256 ∨ i = .hlt ∧ t.pc = 257 := by
  by_cases hi : i = .hlt
  · subst hi
    obtain rfl : (s.halt .hlt).setPc 257 = t := Host.Outcome.next.inj h
    exact .inr ⟨rfl, rfl⟩
  · refine .inl ⟨hi, ?_⟩
    obtain ⟨f, rfl, -, -⟩ | heffect := exec_cases h
    · rw [State.raise_pc]
      omega
    · obtain hnext | ⟨b, hbyte⟩ | ⟨hhlt, -⟩ := heffect.pc_cases
      · rw [hnext, BitVec.toNat_add, BitVec.toNat_ofNat]
        omega
      · exact hbyte ▸ (Byte.toPc_lt b).le
      · exact absurd hhlt hi

/-- Settles O28: of the instructions only HLT leaves the pc above 256; a step that runs none keeps the pc. -/
theorem loopBoundAgreesWithHalt : Obligations.LoopBoundAgreesWithHalt := by
  unfold Obligations.LoopBoundAgreesWithHalt
  intro opc s t hs hle h
  obtain ⟨-, rfl⟩ | ⟨-, -, rfl⟩ | ⟨hp, op, -, ⟨f, -, rfl⟩ | ⟨i, hread, hexec⟩⟩ := stepWith_running_cases hs h
  · simpa using hle
  · simpa using hle
  · simpa using hle
  · rw [exec_halted_iff (s := s.setStarted) hs hexec]
    obtain ⟨hi, hpc⟩ | ⟨rfl, hpc⟩ := exec_pc_le_or_hlt hexec (readOperands_ok_bytes hp hread).1
    · simp [hi, hpc]
    · simp [hpc]

/-- Settles O29: read off the effect of each instruction. -/
theorem pcSequencerSelectsNextPc : Obligations.PcSequencerSelectsNextPc := by
  unfold Obligations.PcSequencerSelectsNextPc
  intro i s t hdone
  have h := hdone.effect
  cases i
  case ldi | prn =>
    obtain ⟨_, _, rfl⟩ := h
    rfl
  case add | mul | cmp | pop =>
    obtain ⟨_, _, _, _, rfl⟩ := h
    rfl
  case push =>
    obtain ⟨_, _, _, rfl⟩ := h
    rfl
  case call =>
    obtain ⟨r, hr, _, _, rfl⟩ := h
    exact ⟨r, hr, by simp⟩
  case ret =>
    obtain ⟨v, hv, _, rfl⟩ := h
    exact ⟨v, hv, rfl⟩
  case jmp | jeq | jne =>
    obtain ⟨r, hr, rfl⟩ := h
    exact ⟨r, hr, rfl⟩
  case hlt =>
    subst h
    rfl

end Sys2Proof.Machine

/-! Proofs of the statements of 40_load_print.md: LDI (R130) and PRN (R131), each read off its completed state. -/

namespace Sys2Proof.Machine

/-- The register frame of a register write (R17). -/
theorem regsSameExcept_writeReg (s : State) (r : Fin 8) (v : Byte) : RegsSameExcept [r] s (s.writeReg r v) := by
  intro k hk
  rw [State.reg_writeReg, if_neg (List.ne_of_not_mem_cons hk)]

/-- Settles O1: LDI writes its one register and advances the pc, and every other field stays. -/
theorem ldiLoadsItsValue : Obligations.LdiLoadsItsValue := by
  unfold Obligations.LdiLoadsItsValue
  intro s b v r hr
  have hloaded : ((s.writeReg r v).advance 3).reg r = v := by simp
  have hothers : RegsSameExcept [r] s ((s.writeReg r v).advance 3) := regsSameExcept_writeReg s r v
  exact ⟨_, exec_ldi hr, hloaded, rfl, hothers, rfl, rfl, fun _ _ => rfl, rfl, rfl⟩

/-- Settles O2: PRN appends to the output and advances the pc, and every other field stays. -/
theorem prnEmitsTheRegister : Obligations.PrnEmitsTheRegister := by
  unfold Obligations.PrnEmitsTheRegister
  intro s b r hr
  exact ⟨_, exec_prn hr, rfl, rfl, fun _ _ => rfl, rfl, fun _ _ => rfl, rfl, rfl⟩

end Sys2Proof.Machine

/-! Proofs of the statements of 41_alu.md: the ALU and its selects (R141 to R145), ADD, MUL and CMP (R147 to R149). -/

namespace Sys2Proof.Machine

/-! ### The ALU (R141 to R145) -/

/-- Settles O41: one equation of the ALU per operation. -/
theorem aluComputesItsOperations : Obligations.AluComputesItsOperations := by
  unfold Obligations.AluComputesItsOperations
  refine ⟨fun a b => ⟨_, alu_add a b, sat8_toNat _, rfl, rfl⟩, fun a b => ⟨_, alu_mul a b, sat8_toNat _, rfl, rfl⟩,
    fun a b => ⟨_, alu_cmp a b, ?_, rfl, rfl⟩⟩
  exact decide_eq_true_iff

/-- The select that is none of the three operations (R145). -/
theorem alu_unsupported (a b : Byte) : alu 3 a b = .error (.unsupportedOperation 3) := by
  simp [alu, aluAdd, aluMul, aluCmp]

/-- With both register operands good, the handler of format F2R takes the ALU's fault. -/
theorem finish_aluHandler_takesFault_unsupported {x y : Byte} {a b : Fin 8} (hx : x.toNat = a.val)
    (hy : y.toNat = b.val) (s : State) :
    TakesFault (.unsupportedOperation 3) s (finish s (aluHandler 3 x y s)) := by
  rw [aluHandler, regIdx_ok_iff.mpr hx, regIdx_ok_iff.mpr hy]
  simp only [bind, Except.bind, alu_unsupported]
  rfl

/-- No instruction that starts in a Running state ends in the ALU's fault: none uses the select 3. -/
theorem exec_not_unsupportedOperation {i : Instr} {s t : State} (hs : s.runState = .running) (h : exec i s = .next t)
    (o : BitVec 2) : t.runState ≠ .faulted (.unsupportedOperation o) := by
  obtain ⟨f, hfault, rfl⟩ | heffect := exec_fault_or_effect h
  · intro hraised
    obtain rfl : f = .unsupportedOperation o := RunState.faulted.inj hraised
    exact hfault
  · exact heffect.not_faulted hs _

/-- Settles O42: the handler with select 3 takes the ALU's fault, and no instruction has that fault among its own. -/
theorem aluUnsupportedSelectFaults : Obligations.AluUnsupportedSelectFaults := by
  unfold Obligations.AluUnsupportedSelectFaults
  refine ⟨⟨rfl, rfl, rfl⟩, fun s x y hx hy => ?_, fun i s t o hs h => exec_not_unsupportedOperation hs h o⟩
  exact finish_aluHandler_takesFault_unsupported (a := ⟨x.toNat, hx⟩) (b := ⟨y.toNat, hy⟩) rfl rfl s

/-! ### ADD and MUL (R147, R148) -/

/-- What ADD and MUL leave in their first operand, and what they leave alone, for any result `n` computed exactly. -/
theorem writeReg_sat8_advance {s t : State} {a : Fin 8} {n : Nat} (ht : t = (s.writeReg a (sat8 n)).advance 3) :
    (t.reg a).toNat = min n 255 ∧ t.pc = s.pc + 3 ∧
      RegsSameExcept [a] s t ∧ t.fl = s.fl ∧ t.out = s.out ∧ MemSameExcept [] s t ∧ StatusSame s t := by
  subst ht
  have hresult : (((s.writeReg a (sat8 n)).advance 3).reg a).toNat = min n 255 := by simp [sat8_toNat]
  have hothers : RegsSameExcept [a] s ((s.writeReg a (sat8 n)).advance 3) := regsSameExcept_writeReg s a (sat8 n)
  exact ⟨hresult, rfl, hothers, rfl, rfl, fun _ _ => rfl, rfl, rfl⟩

/-- Settles O3: ADD writes the saturated sum to its first operand and advances the pc. -/
theorem addSaturates : Obligations.AddSaturates := by
  unfold Obligations.AddSaturates
  intro s x y a b hx hy
  exact ⟨_, exec_add hx hy, writeReg_sat8_advance rfl⟩

/-- Settles O4: MUL writes the saturated product to its first operand and advances the pc. -/
theorem mulSaturates : Obligations.MulSaturates := by
  unfold Obligations.MulSaturates
  intro s x y a b hx hy
  exact ⟨_, exec_mul hx hy, writeReg_sat8_advance rfl⟩

/-! ### CMP and the jumps it decides (R149, R173, R174) -/

/-- Settles O5: CMP writes FL's Equal bit and advances the pc. -/
theorem cmpSetsEqualOnly : Obligations.CmpSetsEqualOnly := by
  unfold Obligations.CmpSetsEqualOnly
  intro s x y a b hx hy
  refine ⟨_, exec_cmp hx hy, ?_, fun k hk hk' => ?_, rfl, fun _ _ => rfl, rfl, fun _ _ => rfl, rfl, rfl⟩
  · rw [State.advance_fl, State.setEqual_fl, withEqual_getLsbD _ _ _ (by decide), if_pos rfl, decide_eq_true_iff]
  · rw [State.advance_fl, State.setEqual_fl, withEqual_getLsbD _ _ _ (by omega), if_neg (by omega)]

/-- Settles O43: the Equal bit that CMP leaves is the one the two jumps read, and CMP changes no register. -/
theorem compareDecidesBranches : Obligations.CompareDecidesBranches := by
  unfold Obligations.CompareDecidesBranches
  intro s t x y z a b r hx hy hz hcmp
  obtain ⟨t', ht', hequal, -, -, hregs, -⟩ := cmpSetsEqualOnly s x y a b hx hy
  obtain rfl : t' = t := Host.Outcome.next.inj (ht'.symm.trans hcmp)
  have htarget : t'.reg r = s.reg r := hregs r List.not_mem_nil
  refine ⟨_, _, exec_jeq hz, exec_jne hz, fun heq => ?_, fun hne => ?_⟩
  · have hset := hequal.mpr heq
    simp only [State.setPc_pc, hset, htarget, reduceIte, reduceCtorEq, and_self]
  · have hclear : t'.fl.getLsbD 0 = false := Bool.eq_false_iff.mpr (mt hequal.mp hne)
    simp only [State.setPc_pc, hclear, htarget, reduceIte, reduceCtorEq, and_self]

end Sys2Proof.Machine

/-! Proofs of the statements of 42_stack.md: the checks of a stack instruction (R161, R166, R170, R171), PUSH (R165),
POP (R162, R166) and R7 as their operand (R164). -/

namespace Sys2Proof.Machine

/-! ### The checks of a stack instruction, in their order -/

/-- A check that fails ends the instruction in that check's fault, whatever follows it. -/
theorem finish_bind_takesFault_of_error {α : Type} {e : Except FaultCause α} {f : FaultCause} (he : e = .error f)
    {s : State} {rest : α → Except FaultCause State} : TakesFault f s (finish s (e >>= rest)) := by
  subst he
  rfl

/-- A check that passes hands its value on, and the fault is that of a later check. -/
theorem finish_bind_takesFault_of_ok {α : Type} {e : Except FaultCause α} {a : α} (he : e = .ok a) {f : FaultCause}
    {s : State} {rest : α → Except FaultCause State} (hrest : TakesFault f s (finish s (rest a))) :
    TakesFault f s (finish s (e >>= rest)) := by
  subst he
  exact hrest

/-- The read at SP of a set cell; its address always exists. -/
theorem memRead_sp_of_set {s : State} {v : Byte} (h : s.cell s.sp.toNat = some v) : memRead s s.sp.toPc = .ok v :=
  memRead_ok_iff.mpr ⟨Byte.toPc_lt _, by rwa [Byte.toPc_toNat]⟩

/-- The read at SP of an unset cell; its address always exists. -/
theorem memRead_sp_of_unset {s : State} (h : s.cell s.sp.toNat = none) :
    memRead s s.sp.toPc = .error (.unsetRead s.sp.toPc) :=
  memRead_error_iff.mpr (.inr ⟨Byte.toPc_lt _, by rwa [Byte.toPc_toNat], rfl⟩)

/-- Settles O15: each instruction's checks in their order, up to the one that fails. -/
theorem stackReadsAndReturnAddressAreChecked : Obligations.StackReadsAndReturnAddressAreChecked := by
  unfold Obligations.StackReadsAndReturnAddressAreChecked
  refine ⟨fun s b hb hunset => ⟨?_, ?_⟩, fun s v hsp hset => ?_, fun s b hb hsp hpc => ?_⟩
  · have hreg : regIdx b = .ok ⟨b.toNat, hb⟩ := regIdx_ok_iff.mpr rfl
    exact finish_bind_takesFault_of_ok hreg (finish_bind_takesFault_of_error (memRead_sp_of_unset hunset))
  · exact finish_bind_takesFault_of_error (memRead_sp_of_unset hunset)
  · have hread : memRead s s.sp.toPc = .ok v := memRead_sp_of_set (by rw [hsp]; exact hset)
    have hoverflow : spIncrement s = .error (.stackOverflow 255) := spIncrement_error_iff.mpr ⟨hsp, rfl⟩
    exact finish_bind_takesFault_of_ok hread (finish_bind_takesFault_of_error hoverflow)
  · have hreg : regIdx b = .ok ⟨b.toNat, hb⟩ := regIdx_ok_iff.mpr rfl
    have hdecrement := spDecrement_ok_iff.mpr ⟨hsp, rfl⟩
    have hrange : returnAddress s = .error (.returnAddressRange 256) :=
      returnAddress_error_iff.mpr (by rw [hpc]; decide)
    exact finish_bind_takesFault_of_ok hreg
      (finish_bind_takesFault_of_ok hdecrement (finish_bind_takesFault_of_error hrange))

/-! ### What a stack write and POP's increment leave alone -/

/-- The memory frame of a cell write (R19). -/
theorem memSameExcept_writeCell (s : State) (a v : Byte) : MemSameExcept [a.toNat] s (s.writeCell a v) := by
  intro k hk
  rw [State.cell_writeCell, if_neg (List.ne_of_not_mem_cons hk)]

/-- POP's increment writes SP alone. -/
theorem reg_spIncrementClamped (s : State) {k : Fin 8} (hk : k ≠ 7) : (spIncrementClamped s).reg k = s.reg k := by
  rw [spIncrementClamped, State.reg_writeSp, if_neg hk]

/-! ### The completed PUSH, CALL and POP -/

/-- PUSH from a non-zero SP moves SP down by one and leaves its register, read after the decrement, on top. -/
theorem exec_push_top {s : State} {x : Byte} {r : Fin 8} (hx : x.toNat = r.val) (hsp : s.sp ≠ 0) :
    ∃ t, exec (.push x) s = .next t ∧ t.sp = s.sp - 1 ∧
      t.cell t.sp.toNat = some (if r = 7 then s.sp - 1 else s.reg r) :=
  ⟨_, exec_push hx hsp, by simp, by simp⟩

/-- CALL from a non-zero SP moves SP down by one and jumps to its register, read after the decrement. -/
theorem exec_call_target {s : State} {x : Byte} {r : Fin 8} (hx : x.toNat = r.val) (hsp : s.sp ≠ 0)
    (hpc : s.pc.toNat ≤ 253) :
    ∃ t, exec (.call x) s = .next t ∧ t.sp = s.sp - 1 ∧ t.pc = (if r = 7 then s.sp - 1 else s.reg r).toPc :=
  ⟨_, exec_call hx hsp hpc, by simp, rfl⟩

/-- Settles O6: PUSH writes SP and the cell at the new SP, advances the pc, and every other field stays. -/
theorem pushStoresBelowSp : Obligations.PushStoresBelowSp := by
  unfold Obligations.PushStoresBelowSp
  intro s b r hr hsp
  refine ⟨_, exec_push hr hsp, ?_, ?_, ?_, rfl, ?_, rfl, rfl, rfl, rfl⟩
  · rw [State.advance_sp, State.writeCell_sp, State.sp_writeSp, (byte_pred hsp).1]
  · rw [State.advance_cell, State.cell_writeCell, if_pos rfl]
  · exact memSameExcept_writeCell (s.writeSp (s.sp - 1)) (s.sp - 1) _
  · exact regsSameExcept_writeReg s 7 (s.sp - 1)

/-- Settles O7: POP writes its register and then SP, as that write left it; with R7 the two are one register. -/
theorem popLoadsAndClamps : Obligations.PopLoadsAndClamps := by
  unfold Obligations.PopLoadsAndClamps
  intro s b v r hr hcell
  have hsp := sp_spIncrementClamped (s.writeReg r v)
  rw [State.sp_writeReg] at hsp
  refine ⟨_, exec_pop hr hcell, fun hne => ⟨?_, ?_⟩, fun heq => ?_, rfl, fun k hk => ?_, rfl, rfl, fun _ _ => rfl,
    rfl, rfl⟩
  · rw [State.advance_reg, reg_spIncrementClamped _ hne, State.reg_writeReg, if_pos rfl]
  · rw [State.advance_sp, hsp, if_neg hne.symm]
  · rw [State.advance_sp, hsp, if_pos heq.symm]
  · obtain ⟨hkr, hk7⟩ : k ≠ r ∧ k ≠ 7 := by simpa using hk
    rw [State.advance_reg, reg_spIncrementClamped _ hk7, State.reg_writeReg, if_neg hkr]

/-- Settles O14: at SP = 0 the decrement is the check that fails; from any other SP both instructions complete with SP
one less. -/
theorem stackPointerDecrementIsChecked : Obligations.StackPointerDecrementIsChecked := by
  unfold Obligations.StackPointerDecrementIsChecked
  refine fun s b hb => ⟨fun hzero => ?_, fun hsp => ?_⟩
  · have hreg : regIdx b = .ok ⟨b.toNat, hb⟩ := regIdx_ok_iff.mpr rfl
    have hunderflow : spDecrement s = .error (.stackUnderflow 0) := spDecrement_error_iff.mpr ⟨hzero, rfl⟩
    exact ⟨finish_bind_takesFault_of_ok hreg (finish_bind_takesFault_of_error hunderflow),
      finish_bind_takesFault_of_ok hreg (finish_bind_takesFault_of_error hunderflow)⟩
  · have hless : (s.sp - 1).toNat + 1 = s.sp.toNat := by
      obtain ⟨hpred, hpos⟩ := byte_pred hsp
      omega
    refine ⟨?_, fun hpc => ?_⟩
    · obtain ⟨t, hexec, ht, -⟩ := exec_push_top (r := ⟨b.toNat, hb⟩) rfl hsp
      exact ⟨t, hexec, ht ▸ hless⟩
    · obtain ⟨t, hexec, ht, -⟩ := exec_call_target (r := ⟨b.toNat, hb⟩) rfl hsp hpc
      exact ⟨t, hexec, ht ▸ hless⟩

/-! ### PUSH and POP together, and R7 as operand (R164, R166) -/

/-- Settles O44: the cell that POP reads is the one PUSH left on top, and SP goes down by one and up by one, clamped. -/
theorem pushPopRoundTrip : Obligations.PushPopRoundTrip := by
  unfold Obligations.PushPopRoundTrip
  intro s t x y a b hx hy hb hsp hpush
  obtain ⟨t', ht', hspt, htop⟩ := exec_push_top hx hsp
  obtain rfl : t' = t := Host.Outcome.next.inj (ht'.symm.trans hpush)
  obtain ⟨u, hpop, hloaded, -⟩ := popLoadsAndClamps t' y _ b hy htop
  obtain ⟨hreg, hspu⟩ := hloaded hb
  have hback : u.sp.toNat = min s.sp.toNat 244 := by
    obtain ⟨hpred, hpos⟩ := byte_pred hsp
    rw [hspu, hspt, hpred, Nat.sub_add_cancel hpos]
  refine ⟨u, hpop, hreg, fun hle => ?_, fun hgt => ?_⟩
  · exact BitVec.eq_of_toNat_eq (hback.trans (Nat.min_eq_left hle))
  · exact BitVec.eq_of_toNat_eq (hback.trans (Nat.min_eq_right hgt.le))

/-- Settles O46: PUSH, CALL and POP at the register R7. -/
theorem spOperandEffectsAreOrdered : Obligations.SpOperandEffectsAreOrdered := by
  unfold Obligations.SpOperandEffectsAreOrdered
  refine fun s => ⟨fun hsp => ?_, fun v hcell => ?_, fun hsp hpc => ?_⟩
  · obtain ⟨t, hexec, ht, htop⟩ := exec_push_top (x := 7) (r := 7) rfl hsp
    exact ⟨t, hexec, ht, by rw [htop, if_pos rfl, ht]⟩
  · obtain ⟨t, hexec, -, hclamped, -⟩ := popLoadsAndClamps s 7 v 7 rfl hcell
    exact ⟨t, hexec, hclamped rfl⟩
  · obtain ⟨t, hexec, ht, hjump⟩ := exec_call_target (x := 7) (r := 7) rfl hsp hpc
    exact ⟨t, hexec, ht, by rw [hjump, if_pos rfl, ht]⟩

end Sys2Proof.Machine

/-! Proofs of the statements of 43_control.md: CALL (R170), RET (R171), the two together, JMP (R172), JEQ (R173),
JNE (R174) and HLT (R175). -/

namespace Sys2Proof.Machine

/-! ### CALL and RET (R170, R171) -/

/-- Settles O8: CALL writes SP and the return address at the new SP, jumps, and every other field stays. -/
theorem callPushesReturnAddressAndJumps : Obligations.CallPushesReturnAddressAndJumps := by
  unfold Obligations.CallPushesReturnAddressAndJumps
  intro s b r hr hsp hpc
  refine ⟨_, BitVec.ofNat 8 (s.pc.toNat + 2), exec_call hr hsp hpc, ?_, ?_, ?_, ?_, ?_, ?_, rfl, rfl, rfl, rfl⟩
  · rw [State.setPc_cell, State.cell_writeCell, if_pos rfl]
  · rw [BitVec.toNat_ofNat, Nat.mod_eq_of_lt (by omega)]
  · rw [State.setPc_sp, State.writeCell_sp, State.sp_writeSp, (byte_pred hsp).1]
  · rw [State.setPc_pc, Byte.toPc_toNat]
  · exact memSameExcept_writeCell (s.writeSp (s.sp - 1)) (s.sp - 1) _
  · exact regsSameExcept_writeReg s 7 (s.sp - 1)

/-- Settles O9: RET writes SP and jumps to the cell's value, and every other field stays. -/
theorem retReturnsToPoppedAddress : Obligations.RetReturnsToPoppedAddress := by
  unfold Obligations.RetReturnsToPoppedAddress
  intro s v hcell hsp
  refine ⟨_, exec_ret hcell hsp, ?_, ?_, ?_, rfl, rfl, fun _ _ => rfl, rfl, rfl⟩
  · rw [State.setPc_pc, Byte.toPc_toNat]
  · rw [State.setPc_sp, State.sp_writeSp, byte_succ hsp]
  · exact regsSameExcept_writeReg s 7 (s.sp + 1)

/-- Settles O45: the cell that RET reads is the one CALL left on top, and SP goes down by one and up by one; one below a
non-zero SP the increment cannot overflow. -/
theorem callRetRoundTrip : Obligations.CallRetRoundTrip := by
  unfold Obligations.CallRetRoundTrip
  intro s t u x hcall husp hucell
  obtain ⟨hsp, htsp, ra, hra, htop⟩ := hcall.effect.call_stored
  have hbelow : u.sp = s.sp - 1 := husp.trans htsp
  have hread : u.cell u.sp.toNat = some ra := by rw [hucell, htsp, htop]
  have hroom : u.sp ≠ 255 := by bv_omega
  refine ⟨_, exec_ret hread hroom, ?_, ?_⟩
  · have hbyte := ra.isLt
    have hpc := Byte.toPc_toNat ra
    rw [State.setPc_pc]
    bv_omega
  · rw [State.setPc_sp, State.sp_writeSp, hbelow, BitVec.sub_add_cancel]

/-! ### JMP, JEQ and JNE (R172 to R174) -/

/-- A jump changes the pc and nothing else (R23). -/
theorem setPc_frame (s : State) (p : PcWord) :
    RegsSameExcept [] s (s.setPc p) ∧ (s.setPc p).fl = s.fl ∧ (s.setPc p).out = s.out ∧
      MemSameExcept [] s (s.setPc p) ∧ StatusSame s (s.setPc p) :=
  ⟨fun _ _ => rfl, rfl, rfl, fun _ _ => rfl, rfl, rfl⟩

/-- A conditional jump goes to the byte target when its condition holds and falls through to the other pc when not. -/
theorem setPc_ite_pc (s : State) (c : Prop) [Decidable c] (target : Byte) (next : PcWord) :
    (c → (s.setPc (if c then target.toPc else next)).pc.toNat = target.toNat) ∧
      (¬ c → (s.setPc (if c then target.toPc else next)).pc = next) := by
  refine ⟨fun h => ?_, fun h => ?_⟩
  · rw [State.setPc_pc, if_pos h, Byte.toPc_toNat]
  · rw [State.setPc_pc, if_neg h]

/-- Settles O10: JMP sets the pc alone. -/
theorem jmpJumpsThroughRegister : Obligations.JmpJumpsThroughRegister := by
  unfold Obligations.JmpJumpsThroughRegister
  intro s b r hr
  exact ⟨_, exec_jmp hr, Byte.toPc_toNat (s.reg r), setPc_frame s _⟩

/-- Settles O11: each jump sets the pc alone, JEQ on the Equal bit and JNE on its negation. -/
theorem conditionalJumpsFollowEqual : Obligations.ConditionalJumpsFollowEqual := by
  unfold Obligations.ConditionalJumpsFollowEqual
  intro s b r hr
  obtain ⟨hjeq, hjeqElse⟩ := setPc_ite_pc s (s.fl.getLsbD 0 = true) (s.reg r) (s.pc + 2)
  obtain ⟨hjne, hjneElse⟩ := setPc_ite_pc s (s.fl.getLsbD 0 = false) (s.reg r) (s.pc + 2)
  exact ⟨⟨_, exec_jeq hr, hjeq, fun hclear => hjeqElse (ne_true_of_eq_false hclear), setPc_frame s _⟩,
    ⟨_, exec_jne hr, hjne, fun hset => hjneElse (ne_false_of_eq_true hset), setPc_frame s _⟩⟩

/-! ### HLT (R175) -/

/-- Settles O12: HLT sets the run state and the pc, and every other field stays. -/
theorem hltHaltsAtSentinel : Obligations.HltHaltsAtSentinel := by
  unfold Obligations.HltHaltsAtSentinel
  intro s
  exact ⟨_, exec_hlt, rfl, rfl, rfl, rfl, fun _ _ => rfl, rfl, rfl, fun _ _ => rfl, rfl⟩

end Sys2Proof.Machine

/-! Proofs of the statements of 60_exceptions.md: the invariant of every step (R191), the priority of the causes of one
step (R195), and a stopped block (R197, R203). -/

namespace Sys2Proof.Machine

/-! ### The invariant (R191) -/

/-- Settles O23: a step answers a next state, and it keeps the invariant whichever state it answers. -/
theorem stepKeepsInvariant : Obligations.StepKeepsInvariant := by
  unfold Obligations.StepKeepsInvariant
  intro opc s hinv
  obtain ⟨t, h⟩ := stepWith_answers_next opc s
  exact ⟨t, h, stepWith_inv hinv h⟩

/-! ### The priority of the causes of one step (R195) -/

/-- Priority 1: outside memory the fetch is all that a step does. -/
theorem stepFaults_of_fetchOutOfRange {opc : OpcMap} {s : State} (hs : s.runState = .running)
    (hp : 256 ≤ s.pc.toNat) : StepFaults opc (.fetchOutOfRange s.pc) s := by
  have hfetch : fetch s.setStarted = .error (.fetchOutOfRange s.pc) := fetch_error_iff.mpr ⟨hp, rfl⟩
  rw [StepFaults, stepWith_of_running hs, fetchDecodeExecute, hfetch]
  rfl

/-- A fault of the operand reads of a recognized opcode is the step's. -/
theorem stepFaults_of_readOperands_error {opc : OpcMap} (hd : OpcMap.Distinct opc) {s : State}
    (hs : s.runState = .running) {op : Opcode} (hp : s.pc.toNat < 256) (hop : s.cell s.pc.toNat = some (opc op))
    {f : FaultCause} (hread : readOperands s.setStarted op.format = .error f) : StepFaults opc f s := by
  have hfetch : fetch s.setStarted = .ok (some (opc op)) := fetch_ok_iff.mpr ⟨hp, hop.symm⟩
  simp only [StepFaults, stepWith_of_running hs, fetchDecodeExecute, hfetch, Option.bind_some,
    decodeOpcode_self hd op, hread]
  rfl

/-- The read of operand byte 1 comes first in every format that has one (R106). -/
theorem readOperands_first_error {s : State} {op : Opcode} (hlen : 2 ≤ op.length) {f : FaultCause}
    (hread : memRead s (s.pc + 1) = .error f) : readOperands s op.format = .error f := by
  rw [Opcode.length] at hlen
  cases hformat : op.format with
  | f0 i => simp [hformat] at hlen
  | f1r mk | f2r mk | f2i mk =>
    rw [readOperands, hread]
    rfl

/-- The read of operand byte 2 comes next in the formats of three bytes (R106). -/
theorem readOperands_second_error {s : State} {op : Opcode} (hlen : op.length = 3) {b1 : Byte} {f : FaultCause}
    (hread1 : memRead s (s.pc + 1) = .ok b1) (hread2 : memRead s (s.pc + 2) = .error f) :
    readOperands s op.format = .error f := by
  rw [Opcode.length] at hlen
  cases hformat : op.format with
  | f0 i | f1r mk => simp [hformat] at hlen
  | f2r mk | f2i mk =>
    rw [readOperands, hread1]
    simp only [bind, Except.bind, hread2]

/-- An operand read at the first address outside memory (R18). -/
theorem memRead_past_end {s : State} {k : PcWord} (h : s.pc + k = 256) :
    memRead s (s.pc + k) = .error (.operandOutOfRange 256) := by
  rw [h]
  rfl

/-- An operand read of an unset cell inside memory (R18). -/
theorem memRead_pc_add_unset {s : State} {k : Nat} (hk : s.pc.toNat + k < 256)
    (hcell : s.cell (s.pc.toNat + k) = none) :
    memRead s (s.pc + BitVec.ofNat 9 k) = .error (.unsetRead (s.pc + BitVec.ofNat 9 k)) := by
  have hadd : (s.pc + BitVec.ofNat 9 k).toNat = s.pc.toNat + k := by
    rw [BitVec.toNat_add, BitVec.toNat_ofNat]
    omega
  exact memRead_error_iff.mpr (.inr (hadd ▸ ⟨hk, hcell, rfl⟩))

theorem BytesAt.nil {s : State} {a : Nat} (ha : a ≤ 256) : BytesAt s a [] := ⟨ha, nofun⟩

/-- `BytesAt.uncons` the other way. -/
theorem BytesAt.cons {s : State} {a : Nat} {b : Byte} {bs : List Byte} (hcell : s.cell a = some b)
    (h : BytesAt s (a + 1) bs) : BytesAt s a (b :: bs) := by
  obtain ⟨hroom, hcells⟩ := h
  refine ⟨by rw [List.length_cons]; omega, fun k hk => ?_⟩
  cases k with
  | zero => exact hcell
  | succ k =>
    rw [← Nat.add_assoc, Nat.add_right_comm]
    exact hcells k (Nat.lt_of_succ_lt_succ hk)

/-- The operand stage takes exactly as many bytes as the operation's length asks for (R94). -/
theorem decodeOperands_of_length {op : Opcode} {bytes : List Byte} (h : bytes.length + 1 = op.length) :
    ∃ i, decodeOperands op bytes = .ok (i, []) := by
  rw [Opcode.length] at h
  unfold decodeOperands
  cases hformat : op.format <;> rw [hformat] at h
  case f0 i =>
    obtain rfl := List.length_eq_zero_iff.mp (Nat.succ.inj h)
    exact ⟨i, rfl⟩
  case f1r mk =>
    obtain ⟨b1, rfl⟩ := List.length_eq_one_iff.mp (Nat.succ.inj h)
    exact ⟨mk b1, rfl⟩
  case f2r mk | f2i mk =>
    obtain ⟨b1, b2, rfl⟩ := List.length_eq_two.mp (Nat.succ.inj h)
    exact ⟨mk b1 b2, rfl⟩

/-- Where all operand bytes of a recognized opcode are set, the encoding of an instruction stands at the pc. -/
theorem exists_instr_at_pc {opc : OpcMap} {s : State} {op : Opcode} {b1 : Byte} (hlen : 2 ≤ op.length)
    (hp : s.pc.toNat < 255) (hop : s.cell s.pc.toNat = some (opc op)) (hcell1 : s.cell (s.pc.toNat + 1) = some b1)
    (hset : op.length = 3 → s.pc.toNat < 254 ∧ s.cell (s.pc.toNat + 2) ≠ none) :
    ∃ i rest, i.operands = b1 :: rest ∧ BytesAt s s.pc.toNat (encode opc i) := by
  obtain ⟨rest, hlength, hbytes⟩ : ∃ rest : List Byte, (b1 :: rest).length + 1 = op.length ∧
      BytesAt s s.pc.toNat (opc op :: b1 :: rest) := by
    by_cases hthree : op.length = 3
    · obtain ⟨hroom, hsome⟩ := hset hthree
      obtain ⟨b2, hcell2⟩ := Option.ne_none_iff_exists'.mp hsome
      exact ⟨[b2], hthree.symm, .cons hop (.cons hcell1 (.cons hcell2 (.nil (by omega))))⟩
    · have htwo : op.length = 2 := by have := op.length_bounds; omega
      exact ⟨[], htwo.symm, .cons hop (.cons hcell1 (.nil (by omega)))⟩
  obtain ⟨i, hi⟩ := decodeOperands_of_length hlength
  obtain ⟨rfl, hoperands⟩ := decodeOperands_ok_iff.mp hi
  rw [List.append_nil] at hoperands
  exact ⟨i, rest, hoperands.symm, by rwa [encode, ← hoperands]⟩

/-- A fault of the instruction whose bytes stand at the pc is the step's. -/
theorem stepFaults_of_exec {opc : OpcMap} (hd : OpcMap.Distinct opc) {s : State} (hs : s.runState = .running)
    {i : Instr} (hbytes : BytesAt s s.pc.toNat (encode opc i)) {f : FaultCause}
    (hfault : TakesFault f s.setStarted (exec i s.setStarted)) : StepFaults opc f s := by
  have hdecode : decode opc (encode opc i) = .ok (i, []) := by simpa using decode_encode hd i []
  rw [StepFaults, stepRunsDecodedInstruction.1 opc s _ [] i hs hbytes hdecode]
  exact hfault

/-- Every instruction checks its first register operand before anything else (R20, R106). -/
theorem exec_first_operand_takesFault {i : Instr} {b : Byte} {rest : List Byte} (hi : i.operands = b :: rest)
    (hb : 8 ≤ b.toNat) (s : State) : TakesFault (.registerIndex b) s (exec i s) := by
  cases i
  case hlt | ret => cases hi
  case ldi | prn | push | pop | call | jmp | jeq | jne | add | mul | cmp =>
    cases hi
    exact finish_regIdx_bind_takesFault hb s _

/-- No step ends in the ALU's fault: the fetch and the operand reads have other faults, and no instruction has it. -/
theorem stepWith_not_unsupportedOperation {opc : OpcMap} {s t : State} (hs : s.runState = .running)
    (h : stepWith opc s = .next t) (o : BitVec 2) : t.runState ≠ .faulted (.unsupportedOperation o) := by
  obtain ⟨-, rfl⟩ | ⟨-, -, rfl⟩ | ⟨hp, op, -, ⟨f, hread, rfl⟩ | ⟨i, -, hexec⟩⟩ := stepWith_running_cases hs h
  · exact nofun
  · exact nofun
  · obtain ⟨rfl, -⟩ | ⟨a, rfl, -⟩ := readOperands_error hp hread
    · exact nofun
    · exact nofun
  · exact exec_not_unsupportedOperation (s := s.setStarted) hs hexec o

section RecognizedOpcode

variable {opc : OpcMap} (hd : OpcMap.Distinct opc) {s : State} (hs : s.runState = .running) {op : Opcode}
  (hop : s.cell s.pc.toNat = some (opc op))
include hd hs hop

/-- Priority 3: the fault of the read of operand byte 1. -/
theorem stepFaults_of_first_read_error (hp : s.pc.toNat < 256) (hlen : 2 ≤ op.length) {f : FaultCause}
    (hread : memRead s.setStarted (s.setStarted.pc + 1) = .error f) : StepFaults opc f s :=
  stepFaults_of_readOperands_error hd hs hp hop (readOperands_first_error hlen hread)

/-- Priority 4: the fault of the read of operand byte 2. -/
theorem stepFaults_of_second_read_error (hp : s.pc.toNat < 255) (hlen : op.length = 3) {b1 : Byte}
    (hcell1 : s.cell (s.pc.toNat + 1) = some b1) {f : FaultCause}
    (hread : memRead s.setStarted (s.setStarted.pc + 2) = .error f) : StepFaults opc f s := by
  have hread1 : memRead s.setStarted (s.setStarted.pc + 1) = .ok b1 :=
    memRead_pc_add (s := s.setStarted) (k := 1) (Nat.succ_lt_succ hp) hcell1
  exact stepFaults_of_readOperands_error hd hs (hp.trans (by decide)) hop
    (readOperands_second_error hlen hread1 hread)

/-- Priority 5: the first register operand, once all operand bytes are read. -/
theorem stepFaults_of_first_register (b1 : Byte) (hlen : 2 ≤ op.length) (hp : s.pc.toNat < 255)
    (hcell1 : s.cell (s.pc.toNat + 1) = some b1)
    (hset : op.length = 3 → s.pc.toNat < 254 ∧ s.cell (s.pc.toNat + 2) ≠ none) (hb1 : 8 ≤ b1.toNat) :
    StepFaults opc (.registerIndex b1) s := by
  obtain ⟨i, rest, hi, hbytes⟩ := exists_instr_at_pc hlen hp hop hcell1 hset
  exact stepFaults_of_exec hd hs hbytes (exec_first_operand_takesFault hi hb1 _)

/-- Priority 5: the second register operand, after a good first one. -/
theorem stepFaults_of_second_register (b1 b2 : Byte) (halu : op = .add ∨ op = .mul ∨ op = .cmp)
    (hp : s.pc.toNat < 254) (hcell1 : s.cell (s.pc.toNat + 1) = some b1) (hcell2 : s.cell (s.pc.toNat + 2) = some b2)
    (hb1 : b1.toNat < 8) (hb2 : 8 ≤ b2.toNat) : StepFaults opc (.registerIndex b2) s := by
  have hbytes : BytesAt s s.pc.toNat [opc op, b1, b2] :=
    .cons hop (.cons hcell1 (.cons hcell2 (.nil (by omega))))
  have hfault := fun select => finish_aluHandler_takesFault_second hb1 hb2 select s.setStarted
  obtain rfl | rfl | rfl := halu
  · exact stepFaults_of_exec (i := .add b1 b2) hd hs hbytes (hfault aluAdd)
  · exact stepFaults_of_exec (i := .mul b1 b2) hd hs hbytes (hfault aluMul)
  · exact stepFaults_of_exec (i := .cmp b1 b2) hd hs hbytes (hfault aluCmp)

end RecognizedOpcode

/-- Settles O19: in the order of R195, each cause is the first thing that fails in the step. -/
theorem faultPriorityOrder : Obligations.FaultPriorityOrder := by
  unfold Obligations.FaultPriorityOrder
  intro opc s hd hs
  refine ⟨stepFaults_of_fetchOutOfRange hs, stepWith_of_unrecognized hs, fun op hp hop => ?_⟩
  have hfirstRead := fun hlen f => stepFaults_of_first_read_error hd hs hop hp hlen (f := f)
  obtain ⟨hunsetRead, hoverflow, hrange⟩ := stackReadsAndReturnAddressAreChecked
  refine ⟨fun hlen hpc => ?_, fun hlen hpc hunset => ?_, fun b1 hlen hp1 hcell1 => ?_,
    stepFaults_of_first_register hd hs hop, stepFaults_of_second_register hd hs hop,
    fun b1 hp1 hcell1 hb1 => ?_, ?_, ?_, fun _ o h => stepWith_not_unsupportedOperation hs h o⟩
  · exact hfirstRead hlen _ (memRead_past_end (by simp [hpc]))
  · have hroom : s.pc.toNat + 1 < 256 := by bv_omega
    exact hfirstRead hlen _ (memRead_pc_add_unset (s := s.setStarted) (k := 1) hroom hunset)
  · have hsecondRead := fun f => stepFaults_of_second_read_error hd hs hop hp1 hlen hcell1 (f := f)
    refine ⟨fun hpc => hsecondRead _ (memRead_past_end (by simp [hpc])), fun hpc hunset => ?_⟩
    have hroom : s.pc.toNat + 2 < 256 := by bv_omega
    exact hsecondRead _ (memRead_pc_add_unset (s := s.setStarted) (k := 2) hroom hunset)
  · have hbytes : BytesAt s s.pc.toNat [opc op, b1] := .cons hop (.cons hcell1 (.nil (by omega)))
    have hunderflow := (stackPointerDecrementIsChecked s.setStarted b1 hb1).1
    refine ⟨?_, ?_, ?_, ?_⟩
    · rintro rfl hsp
      exact stepFaults_of_exec (i := .push b1) hd hs hbytes (hunderflow hsp).1
    · rintro rfl hunset
      exact stepFaults_of_exec (i := .pop b1) hd hs hbytes (hunsetRead s.setStarted b1 hb1 hunset).1
    · rintro rfl hsp
      exact stepFaults_of_exec (i := .call b1) hd hs hbytes (hunderflow hsp).2
    · rintro rfl hsp hpc
      exact stepFaults_of_exec (i := .call b1) hd hs hbytes (hrange s.setStarted b1 hb1 hsp hpc)
  · rintro rfl hunset
    exact stepFaults_of_exec (i := .ret) hd hs (.cons hop (.nil hp))
      (finish_bind_takesFault_of_error (memRead_sp_of_unset hunset))
  · rintro rfl hset hsp
    obtain ⟨v, hcell⟩ := Option.ne_none_iff_exists'.mp hset
    rw [hsp] at hcell
    exact stepFaults_of_exec (i := .ret) hd hs (.cons hop (.nil hp)) (hoverflow s.setStarted v hsp hcell)

/-! ### A stopped block (R197, R203) -/

/-- No input but `rst` changes a stopped block: a step needs Running, and the loader a block that has not started. -/
theorem applyInput_of_stopped {P : Params} {s : State} (hstopped : s.runState ≠ .running) (hstarted : s.started = true)
    {i : Input} (hrst : i ≠ .rst) : applyInput P s i = .next s := by
  cases i with
  | rst => exact absurd rfl hrst
  | load a v => exact congrArg _ (State.loadWrite_of_started hstarted a v)
  | step => exact stepWith_of_stopped hstopped
  | idle => rfl

theorem runInputs_of_stopped {P : Params} {s : State} (hstopped : s.runState ≠ .running) (hstarted : s.started = true)
    {inputs : List Input} (hrst : .rst ∉ inputs) : runInputs P inputs s = .next s := by
  induction inputs with
  | nil => rfl
  | cons i is ih =>
    rw [runInputs, applyInput_of_stopped hstopped hstarted (List.ne_of_not_mem_cons hrst).symm]
    exact ih (List.not_mem_of_not_mem_cons hrst)

/-- Settles O20: by induction over the inputs, none of which changes the state; reset leaves the block Running. -/
theorem stoppedBlockIsTerminal : Obligations.StoppedBlockIsTerminal := by
  unfold Obligations.StoppedBlockIsTerminal
  exact fun P s hstopped hstarted => ⟨fun _ hrst => runInputs_of_stopped hstopped hstarted hrst, ⟨_, rfl, rfl⟩⟩

end Sys2Proof.Machine

/-! Proofs of the statements of 70_reset_and_hazards.md: the invariant of the reset state and what `rst` puts in the
state (R220, R221). -/

namespace Sys2Proof.Machine

theorem State.resetWith_reg_castSucc (g : Vector Byte 7) (f : Byte) (r : Fin 7) :
    (State.resetWith g f).reg r.castSucc = g[r.val] :=
  Vector.getElem_push_lt r.isLt

theorem State.resetWith_sp (g : Vector Byte 7) (f : Byte) : (State.resetWith g f).sp = Config.spInit :=
  Vector.getElem_push_eq

theorem State.resetWith_cell (g : Vector Byte 7) (f : Byte) (a : Nat) : (State.resetWith g f).cell a = none := rfl

/-- Settles O22: memory starts empty, hence canonical, and the block Running at pc 0, so no halt or fault clause applies. -/
theorem resetStateSatisfiesInvariant : Obligations.ResetStateSatisfiesInvariant := by
  unfold Obligations.ResetStateSatisfiesInvariant
  exact State.resetWith_inv

/-- Settles O38: `rst` ignores the state it finds; the registers are `GPR_INIT` with `SP_INIT` after it, and the other
elements stand in the reset state as written. -/
theorem resetPutsConstructionState : Obligations.ResetPutsConstructionState := by
  unfold Obligations.ResetPutsConstructionState
  intro P s
  exact ⟨State.resetWith P.gprInit P.flInit, rfl,
    State.resetWith_reg_castSucc P.gprInit P.flInit, State.resetWith_sp P.gprInit P.flInit,
    rfl, rfl, State.resetWith_cell P.gprInit P.flInit, rfl, rfl, rfl, rfl, rfl⟩

end Sys2Proof.Machine
